-- ==== Sys2Proof/Word.lean ====
section
/-! DEFINITION. The words of the block: the 26-bit input word and the 31-bit output word (00_scope.md R7),
the text form of both (R14), and the level of one input wire (R85). -/

namespace Sys2Proof

/-- One DataBlock as it stands on `data_in[25:0]`; bit 0 is the least significant (R11, R19). -/
abbrev DataWord := BitVec 26

/-- One Codeword as it stands on `code_out[30:0]`; bit 0 is the least significant (R11, R20). -/
abbrev CodeWord := BitVec 31

/-- A text: a sequence of characters (R14, R56). -/
abbrev Text := List Char

/-- The level of one `data_in` wire. A use of the block needs `low` or `high` on every wire (R84); the other
two are the undriven, floating and unknown wires of R85. -/
inductive Wire where
  | low
  | high
  /-- The X value: driven, with no known level (R85). -/
  | unknown
  /-- The Z value: undriven or floating (R85). -/
  | floating
  deriving DecidableEq, Repr

/-- The 26 wires of `data_in`; index `b` is the wire `data_in[b]` (R11, R19). -/
abbrev DataPort := Vector Wire 26

end Sys2Proof
end

