-- ==== Sys2Proof/Syntax.lean ====
section
/-! DEFINITION. The operations of the block: one row in spec/opcode_table.json, one constructor. -/

namespace Sys2Proof

/-- The block's operations (30_encoding.md R37). -/
inductive Instr where
  /-- ENCODE, with its one operand `D = data_in[25:0]` (40_encoder.md R40). -/
  | encode (d : DataWord)
  deriving DecidableEq, Repr

end Sys2Proof
end

