-- ==== Sys2Proof/WellFormed.lean ====
section
/-! DEFINITION. What is well formed: every ENCODE (R36), and a DataBlock's text when it has exactly 26
characters, each '0' or '1' (R14, R33, R70, R71). -/

namespace Sys2Proof

/-- Every one of the 2^26 operands is legal (30_encoding.md R36), so no check can fail. -/
def Instr.wellFormed : Instr → Bool
  | .encode _ => true

/-- The first contract check: the block has exactly 26 bits (60_exceptions.md R70). -/
def blockLengthOk (s : Text) : Bool := s.length == 26

/-- The second contract check: every character is '0' or '1' (60_exceptions.md R71). -/
def blockCharsOk (s : Text) : Bool := s.all fun c => c == '0' || c == '1'

/-- A text is the text of a DataBlock when it meets both contract checks (R14, R33). -/
def blockWellFormed (s : Text) : Bool := blockLengthOk s && blockCharsOk s

end Sys2Proof
end

