-- ==== Sys2Proof/Decode.lean ====
section
/-! DEFINITION. The decoder and, after it, the encoder. The block has two encodings of one ENCODE: the text of a
DataBlock, which the host adapter reads (R14, R64), and the levels of the 26 `data_in` wires (R27). Both
decoders are total and refuse by name. -/

namespace Sys2Proof

/-! ### Names of the refusals -/

/-- The two contract errors of the Encoder, with what each records (60_exceptions.md R70, R71). -/
inductive ContractError where
  /-- The block does not have exactly 26 characters; records its length (R70). -/
  | invalidBlockLength (length : Nat)
  /-- A character is not '0' or '1'; records the 0-based index of the first such character (R71). -/
  | invalidBitValue (index : Nat)
  deriving DecidableEq, Repr

/-- Why the levels of the port are no input word (70_reset_and_hazards.md R85). -/
inductive PortReject where
  /-- Some wire is undriven, floating or unknown. -/
  | wireNotBinary
  deriving DecidableEq, Repr

/-! ### Characters and bits (R14) -/

/-- The character of a bit. -/
def bitChar (b : Bool) : Char := if b then '1' else '0'

/-- The bit of a character of a well formed text. -/
def charBit (c : Char) : Bool := c == '1'

/-- The characters the host keeps and the adapter accepts (R56, R71). -/
def isBitChar (c : Char) : Bool := c == '0' || c == '1'

/-- A text read as a binary number, its first character most significant (R29, R64). -/
def natOfText (s : Text) : Nat := s.foldl (fun acc c => 2 * acc + (charBit c).toNat) 0

/-- A number written with `width` binary digits, most significant first. -/
def textOfNat (width v : Nat) : Text := (List.range width).map fun j => bitChar (v.testBit (width - 1 - j))

/-- The port value of a block's text: `data_in[25-k] = d[k]`, and `d[k]` is the text's character k
(R14, R27). -/
def dataOfText (s : Text) : DataWord := BitVec.ofFnLE fun b : Fin 26 => charBit (s.getD (25 - b) '0')

/-! ### The text decoder: the contract checks of the adapter (R64, R70, R71) -/

/-- The 0-based index of the first character that is not '0' or '1' (R71). -/
def firstBadChar (s : Text) : Option Nat := s.findIdx? fun c => !isBitChar c

/-- What the adapter makes of one block's text: the length is checked first (R75), then the characters, and
a text that passes is the operand of ENCODE. -/
def decodeText (s : Text) : Except ContractError Instr :=
  if s.length = 26 then
    match firstBadChar s with
    | none => .ok (.encode (dataOfText s))
    | some i => .error (.invalidBitValue i)
  else .error (.invalidBlockLength s.length)

/-! ### The wire decoder (R27, R85) -/

/-- A wire with a binary value (R84). -/
def Wire.isBinary (w : Wire) : Bool := w == .low || w == .high

/-- The wire that carries a bit. -/
def Wire.ofBit (b : Bool) : Wire := if b then .high else .low

/-- The number on 26 binary wires; `data_in[b]` is bit b (R11, R33). -/
def dataOfPort (p : DataPort) : DataWord := BitVec.ofFnLE fun b : Fin 26 => p[b] == Wire.high

/-- What the block makes of the levels on its wires: ENCODE of the word when every wire is binary, whatever
that word is (R36, R37), and no input at all otherwise (R85). -/
def decodePort (p : DataPort) : Except PortReject Instr :=
  if p.toList.all Wire.isBinary then .ok (.encode (dataOfPort p)) else .error .wireNotBinary

/-! ### The encoders -/

/-- The text of a DataBlock: character k is `d[k] = data_in[25-k]` (R14, R27). -/
def dataText (d : DataWord) : Text := (List.range 26).map fun k => bitChar (d.getLsbD (25 - k))

/-- The text of a Codeword: `code_out[30]` first and `code_out[0]` last, so that character j (from 1) is
`c[j]` (R14, R28, R64). -/
def codeText (c : CodeWord) : Text := (List.range 31).map fun j => bitChar (c.getLsbD (30 - j))

/-- The block text that decodes to an instruction. -/
def encodeText : Instr → Text
  | .encode d => dataText d

/-- The wires that decode to an instruction. -/
def encodePort : Instr → DataPort
  | .encode d => Vector.ofFn fun b : Fin 26 => Wire.ofBit (d.getLsbD b)

/-! ### The opcode table's words -/

/-- The block text for a table word `w` of `nbits` bits. The table's row is 26 bits wide, so a word below 2^26 is
the 26 characters of that input word; a larger one has more than 26 bits, is written out with all `nbits` of
them, and no 26-character block carries it (R33, R38). DEDUCED, log entry 15. -/
def tableText (nbits w : Nat) : Text :=
  let v := w % 2 ^ nbits
  textOfNat (if v < 2 ^ 26 then 26 else nbits) v

/-- The instruction the decoder reads from a word of the opcode table. -/
def decodeTableWord (nbits w : Nat) : Option Instr :=
  match decodeText (tableText nbits w) with
  | .ok i => some i
  | .error _ => none

end Sys2Proof
end

