-- ==== Sys2Proof/Machine/Operands.lean ====
section
/-! DEFINITION. Positions of the Codeword and the data bit permutation: which bit of `data_in` goes to which
position (R8, R15, R35, R41) and which position is which wire of `code_out` (R28, R46). -/

namespace Sys2Proof.Machine

/-- The parity positions P (00_scope.md R8). -/
def parityPositions : List Nat := [1, 2, 4, 8, 16]

/-- Position classification, a fixed function of the position (30_encoding.md R35). -/
def isParityPosition (i : Nat) : Bool := parityPositions.contains i

/-- The positions 1..31 in ascending order (R10). -/
def positions : List Nat := List.range' 1 31

/-- The data positions D in ascending order (R8). -/
def dataPositions : List Nat := positions.filter fun i => !isParityPosition i

/-- The position of data bit k, in the closed form of R15. -/
def pos (k : Nat) : Nat :=
  if k = 0 then 3 else if k ≤ 3 then k + 4 else if k ≤ 10 then k + 5 else k + 6

/-- The data bit at a data position: the inverse of `pos` (R15). -/
def idx (i : Nat) : Nat := dataPositions.idxOf i

/-- Data bit `d[k] = data_in[25-k]` (R9, R27). -/
def dataBit (d : DataWord) (k : Nat) : Bool := d.getLsbD (25 - k)

/-- A Codeword under construction: the list of `c[1], c[2], ...`; `c[i]` is read here (R10). -/
def bitAt (c : List Bool) (i : Nat) : Bool := c.getD (i - 1) false

/-- `c[i] := b`. -/
def setBitAt (c : List Bool) (i : Nat) (b : Bool) : List Bool := c.set (i - 1) b

/-- Placement, as the pseudocode of R40 loops (R41): the positions are visited in order, `k` counts the data bits
used, and a position that is not a parity position receives the next one. A parity position is left 0 for
the moment. -/
def place (d : DataWord) : Nat → List Nat → List Bool
  | _, [] => []
  | k, i :: rest => if isParityPosition i then false :: place d k rest else dataBit d k :: place d (k + 1) rest

/-- Assembly: `code_out[31-i] = c[i]`, so `code_out[b]` is position `31 - b` (R28, R46). -/
def assemble (c : List Bool) : CodeWord := BitVec.ofFnLE fun b : Fin 31 => bitAt c (31 - b)

/-- Position i of an assembled Codeword (R28). -/
def codeBit (c : CodeWord) (i : Nat) : Bool := c.getLsbD (31 - i)

/-- The number of 1 bits (R12). -/
def popcount {n : Nat} (v : BitVec n) : Nat := (List.range n).countP fun b => v.getLsbD b

/-- The number of 1 bits of a position's number (R12). -/
def natPopcount (v : Nat) : Nat := (List.range 5).countP fun b => v.testBit b

end Sys2Proof.Machine
end

