-- ==== Sys2Proof/Machine/Flags.lean ====
section
/-! DEFINITION. The block has no flags (10_state.md R17; ENCODE writes none, R40). What it computes from its operand
beside copying it are the five parity bits: the parity groups (R42), the parity bit (R43), and the trees of
exclusive-or gates that may compute one (R49). -/

namespace Sys2Proof.Machine

/-- The exclusive-or of a list of bits, 0 when it is empty (R12). -/
def xorBits (bs : List Bool) : Bool := bs.foldr xor false

/-- The parity group of p: the positions i in 1..31 with `(i & p) != 0` (R42). -/
def parityGroup (p : Nat) : List Nat := positions.filter fun i => i &&& p != 0

/-- `c[p]` from the other bits of its group (R43). -/
def parityBit (c : List Bool) (p : Nat) : Bool :=
  xorBits (((parityGroup p).filter (· != p)).map (bitAt c))

/-- The parity loop of R40's pseudocode over a list of parity positions: each parity bit is computed from the
Codeword so far and put in its place (R43, R45). -/
def fillParity (ps : List Nat) (c : List Bool) : List Bool :=
  ps.foldl (fun c p => setBitAt c p (parityBit c p)) c

/-- `par(v) = popcount(v) mod 2` as a bit (R44). -/
def par {n : Nat} (v : BitVec n) : Bool := popcount v % 2 == 1

/-- The XOR over a parity group of an assembled Codeword; 0 on every Codeword (R47). -/
def groupXor (c : CodeWord) (p : Nat) : Bool := xorBits ((parityGroup p).map (codeBit c))

/-- A 31-bit word is a Codeword when every parity group XORs to 0 (R47). -/
abbrev IsCodeword (c : CodeWord) : Prop := ∀ p ∈ parityPositions, groupXor c p = false

/-- The XOR, as numbers, of the positions whose bit is 1 (R47's single statement). -/
def positionXor (c : CodeWord) : Nat := (positions.filter (codeBit c)).foldr (· ^^^ ·) 0

/-! ### Gate trees (R49) -/

/-- A tree of two-input exclusive-or gates over numbered inputs. -/
inductive XorTree where
  | input (n : Nat)
  | gate (l r : XorTree)
  deriving DecidableEq, Repr

/-- The bit a tree computes. -/
def XorTree.eval (a : Nat → Bool) : XorTree → Bool
  | .input n => a n
  | .gate l r => xor (l.eval a) (r.eval a)

/-- The inputs of a tree from left to right. -/
def XorTree.inputs : XorTree → List Nat
  | .input n => [n]
  | .gate l r => l.inputs ++ r.inputs

/-- The number of gates. -/
def XorTree.gates : XorTree → Nat
  | .input _ => 0
  | .gate l r => l.gates + r.gates + 1

/-- The number of gates on the deepest path (R90). -/
def XorTree.depth : XorTree → Nat
  | .input _ => 0
  | .gate l r => max l.depth r.depth + 1

/-- The reference structure of R49, as it writes it:
`((((a0^a1)^(a2^a3))^((a4^a5)^(a6^a7)))^(((a8^a9)^(a10^a11))^((a12^a13)^a14)))`. -/
def referenceTree : XorTree :=
  let pair (n : Nat) : XorTree := .gate (.input n) (.input (n + 1))
  .gate
    (.gate (.gate (pair 0) (pair 2)) (.gate (pair 4) (pair 6)))
    (.gate (.gate (pair 8) (pair 10)) (.gate (pair 12) (.input 14)))

/-- The `data_in` bits of p's row in the table of R44, in that row's order: the bits of the data positions of
G(p) in ascending order of position. -/
def parityInputBits (p : Nat) : List Nat :=
  ((parityGroup p).filter (· != p)).map fun i => 25 - idx i

/-- Input n of p's tree: the n-th `data_in` bit of its row (R49). -/
def parityInput (d : DataWord) (p n : Nat) : Bool := d.getLsbD ((parityInputBits p).getD n 26)

end Sys2Proof.Machine
end

