-- ==== Sys2Proof/Machine/Codeword.lean ====
section
/-! DEFINITION. The function of the block, `ENC : BitVec 26 → BitVec 31` (10_state.md R24), by the pseudocode of R40; beside it
the closed form of R40 and R46 and the generator rows of R54, which obligations state equal to it, and the
extraction of R48. -/

namespace Sys2Proof.Machine

/-- The bits `c[1..31]` of the Codeword: placement, then the parity loop (R40, R41, R43). -/
def codewordBits (d : DataWord) : List Bool := fillParity parityPositions (place d 0 positions)

/-- ENC, the function of the block: a total function with no state argument (R22, R24, R40). -/
def ENC (d : DataWord) : CodeWord := assemble (codewordBits d)

/-- The mask on `data_in` of a parity position (the table of R44). -/
def parityMask : Nat → DataWord
  | 1 => 0x36AD555#26
  | 2 => 0x2D9B333#26
  | 4 => 0x1C78F0F#26
  | 8 => 0x03F80FF#26
  | 16 => 0x0007FFF#26
  | _ => 0#26

/-- A parity bit in closed form, as one bit (R44). -/
def maskParity (d : DataWord) (p : Nat) : BitVec 1 := BitVec.ofBool (par (d &&& parityMask p))

/-- The closed form of R40 and R46: `{p1, p2, D[25], p4, D[24:22], p8, D[21:15], p16, D[14:0]}`. -/
def closedForm (d : DataWord) : CodeWord :=
  (maskParity d 1 ++ maskParity d 2 ++ d.extractLsb' 25 1 ++ maskParity d 4 ++ d.extractLsb' 22 3
    ++ maskParity d 8 ++ d.extractLsb' 15 7 ++ maskParity d 16 ++ d.extractLsb' 0 15).cast
    (show 1 + 1 + 1 + 1 + 3 + 1 + 7 + 1 + 15 = 31 from rfl)

/-- The DataBlock read back from a Codeword's data positions:
`{code_out[28], code_out[26:24], code_out[22:16], code_out[14:0]}` (R48). -/
def extractData (c : CodeWord) : DataWord :=
  (c.extractLsb' 28 1 ++ c.extractLsb' 24 3 ++ c.extractLsb' 16 7 ++ c.extractLsb' 0 15).cast
    (show 1 + 3 + 7 + 15 = 26 from rfl)

/-- The `code_out` column of the generator table, rows 0 to 25 (R54). -/
def generatorTable : List CodeWord :=
  [0x70000000#31, 0x4C000000#31, 0x2A000000#31, 0x69000000#31, 0x40C00000#31, 0x20A00000#31, 0x60900000#31]
  ++ [0x08880000#31, 0x48840000#31, 0x28820000#31, 0x68810000#31, 0x4000C000#31, 0x2000A000#31, 0x60009000#31]
  ++ [0x08008800#31, 0x48008400#31, 0x28008200#31, 0x68008100#31, 0x00808080#31, 0x40808040#31, 0x20808020#31]
  ++ [0x60808010#31, 0x08808008#31, 0x48808004#31, 0x28808002#31, 0x68808001#31]

/-- Row k of the generator table (R54). -/
def generatorRow (k : Nat) : CodeWord := generatorTable.getD k 0#31

/-- The DataBlock with `d[k] = 1` and every other bit 0 (R54). -/
def singleBit (k : Nat) : DataWord := 1#26 <<< (25 - k)

/-- The XOR of the generator rows that the set bits of D select (R50). -/
def xorOfRows (d : DataWord) : CodeWord :=
  ((List.range 26).filter (dataBit d)).foldr (fun k acc => generatorRow k ^^^ acc) 0#31

end Sys2Proof.Machine
end

