-- ==== Sys2Proof/Config.lean ====
section
/-! DEFINITION. What one implementation fixes and the spec leaves open: the propagation delay, and the free
values. None of them has a body, so nothing can see what they are. -/

namespace Sys2Proof

/-- `T_PD` less one: with it `T_PD` is a positive number of ticks of an unnamed unit (R88, D12 OPEN). DESIGN
CHOICE (the unit), log entry 5: safe. -/
opaque Config.T_PD_pred : Nat

/-- `T_PD > 0`, the propagation delay from the last change of `data_in` to a stable `code_out` (R88, D12). -/
def Config.T_PD : Nat := Config.T_PD_pred + 1

/-- Free value: what `code_out` shows to the n-th sample taken before `data_in` is first driven or while the
output settles (R86, R89, D14: any value). DESIGN CHOICE (the form), log entry 4: safe. -/
opaque Config.unsettledCode : Nat → CodeWord

/-- Free value: the lines that reached the output before the n-th error (R66, R76, D11: any value).
DEDUCED, log entry 8: safe. -/
opaque Config.leftoverLines : Nat → List Text

/-- Free value: the characters that end an output line (R64 "then a newline"; N19 leaves them open).
DESIGN CHOICE (the form), log entry 16: safe. -/
opaque Config.lineTerminator : Text

end Sys2Proof
end

