-- ==== Sys2Proof/Machine/State.lean ====
section
/-! DEFINITION. The state of the machine as plain data. The block holds no state (10_state.md R16, R17, R23, R24); what the
machine has are the wires of the block's ports (R19, R85) and the host around them (41_host_stream.md), with
two fields of the model's own (`schedule`, `freeCtr`). -/

namespace Sys2Proof.Machine

/-! ### The ports of the block -/

/-- How far the output has followed the input. -/
inductive Settle where
  /-- `data_in` has not been driven since power-up (R86). -/
  | undriven
  /-- `data_in` last changed `elapsed` ticks ago, less than `T_PD` (R88, R89). -/
  | settling (elapsed : Nat)
  /-- `data_in` has been stable for at least `T_PD` (R22, R88). -/
  | settled
  deriving DecidableEq, Repr

/-- One instance of the block seen from outside: the levels of its 26 input wires and how far the output has
settled. `code_out` is no field: it depends on `data_in` alone (R22, `Port.view`). -/
structure Port where
  dataIn : DataPort
  settle : Settle
  deriving DecidableEq, Repr

/-- The `N_INST ≥ 1` instances of the block (41_host_stream.md R65, 60_exceptions.md R81). -/
structure Bank where
  first : Port
  others : List Port
  deriving DecidableEq, Repr

/-! ### The host -/

/-- The host's input: a literal string or a file's contents, none when the file cannot be read (R56, R57). -/
inductive Source where
  | literal (text : Text)
  | file (contents : Option Text)
  deriving DecidableEq, Repr

/-- Where the lines go: standard output, whose writing never fails, or a file that takes `room` more lines
before a write fails, none for a file that takes every line (R64, R73). DESIGN CHOICE, log entry 11: unsafe
if standard output can fail. -/
inductive Sink where
  | stdout
  | file (room : Option Nat)
  deriving DecidableEq, Repr

/-- The summary metadata: original bit count, chunk count, padding count (R63). -/
structure Metadata where
  bits : Nat
  chunks : Nat
  padding : Nat
  deriving DecidableEq, Repr

/-- What an InputError records (R72). -/
inductive InputCause where
  | unreadable
  | empty
  deriving DecidableEq, Repr

/-- The errors of the host (60_exceptions.md section 2). -/
inductive HostError where
  /-- InputError, code 1 (R72). -/
  | inputError (cause : InputCause)
  /-- OutputError, code 2 (R73). -/
  | outputError
  /-- The contract errors, codes 3 and 4 (R70, R71). -/
  | contract (e : ContractError)
  deriving DecidableEq, Repr

/-- The result of an invocation: the Codewords in chunk order with the metadata, or the error alone (R66, R68).
The metadata is none for blocks handed straight to the adapter, which no Chunker counted (DESIGN CHOICE, log
entry 12: safe). -/
inductive Result where
  | ok (codewords : List CodeWord) (metadata : Option Metadata)
  | err (e : HostError)
  deriving DecidableEq, Repr

/-- Where the host stands in its pipeline (section "The host's pipeline" of 41_host_stream.md). -/
inductive Phase where
  /-- No invocation has begun. -/
  | idle
  /-- The input is to be read and filtered (R56). -/
  | reading (source : Source)
  /-- The filtered Bitstream is to be chunked (R57 to R59). -/
  | chunking (bits : Text)
  /-- The blocks are being encoded (R64). -/
  | encoding
  /-- These Codewords are still to be written (R64, R65). -/
  | writing (rest : List CodeWord)
  /-- The invocation has ended (R66, R68, R76). -/
  | ended (result : Result)
  deriving DecidableEq, Repr

/-- One DataBlock's text, and its Codeword once it has been encoded (R64, R65). -/
structure Slot where
  text : Text
  result : Option CodeWord
  deriving DecidableEq, Repr

/-- The host's choice for one use: which of the blocks that may go next, and on which instance (R65 leaves both
free). Each number is taken modulo how many there are (DESIGN CHOICE, log entry 3: safe). -/
structure Choice where
  block : Nat
  unit : Nat
  deriving DecidableEq, Repr

/-- What the outside world may ask for. -/
inductive Command where
  /-- Run an invocation (R56 to R68). -/
  | invoke (source : Source) (sink : Sink)
  /-- Hand these block texts straight to the adapter (R64; vectors E1 to E4). -/
  | blocks (texts : List Text) (sink : Sink)
  /-- Put levels on an instance's input wires (R79). -/
  | drive (unit : Nat) (wires : DataPort)
  /-- Let time pass with every input stable (R88). -/
  | wait (ticks : Nat)
  /-- Read an instance's `code_out` (R26, R88). -/
  | sample (unit : Nat)
  /-- Take the power of the block away and give it back (R80, R86). DEDUCED, log entry 18: safe. -/
  | powerCycle
  deriving DecidableEq, Repr

/-! ### Why a step can stop -/

/-- The faults. The block raises none (R69) and the host's errors are next states (R66, R76, `takeError`), so the
one fault is the model's. -/
inductive Fault where
  /-- Raised by `runCommand` for a `drive` or `sample` command that names an instance the machine does not have:
  the spec gives no such instance (R65). DESIGN CHOICE, log entry 14. Safe: the machine stops where there is nothing to act on. -/
  | noSuchInstance (unit : Nat)
  deriving DecidableEq, Repr

/-- The refusals. -/
inductive Refusal where
  /-- Raised only by an arm of `exec` whose instruction has no meaning yet; there is none. Safe. -/
  | notModelled (mnemonic : String)
  /-- Raised by `runCommand` for a `sample` of a port that has been driven and has a wire that is undriven, floating or
  unknown: "A model refuses it: it is not a legal input and has no output" (R85; against R86: DEDUCED, log entry 6). Safe. -/
  | inputNotBinary
  deriving DecidableEq, Repr

/-! ### The whole state -/

/-- The state of the machine: the ports of the block, the host, and the model's own `schedule` and `freeCtr`. -/
structure State where
  /-- The instances of the block (R65, R81). -/
  ports : Bank
  /-- What the outside world still asks for, oldest first. -/
  commands : List Command
  /-- Where the host stands in its pipeline. -/
  phase : Phase
  /-- The blocks of this invocation in chunk order (R58, R65). -/
  slots : List Slot
  /-- The three numbers of R63, once the Chunker has run. -/
  metadata : Option Metadata
  /-- Where this invocation writes (R64). -/
  sink : Sink
  /-- The lines this invocation has written (R64). -/
  output : List Text
  /-- Every value the host has read from a `code_out`, newest first (the `w` of R64). -/
  samples : List CodeWord
  /-- The MODEL's own: the host's free choices for the coming uses (R65). -/
  schedule : List Choice
  /-- The MODEL's own: the index of the next free value. -/
  freeCtr : Nat
  deriving DecidableEq, Repr

/-- A port after power-up: no wire is driven (R86). DEDUCED, log entry 19: unsafe for a claim that reads a wire of it. -/
def Port.powerUp : Port := ⟨Vector.replicate 26 .floating, .undriven⟩

/-- The machine after power-up. The block has no reset and no state to reset (R82); its input is not driven yet
(R86). The host has not begun (DESIGN CHOICE, log entry 20), there is one instance (DESIGN CHOICE, log entry 2),
and the host's schedule is the sequential one (DESIGN CHOICE, log entry 3); unsafe for a claim about this state alone. -/
def State.reset : State where
  ports := ⟨Port.powerUp, []⟩
  commands := []
  phase := .idle
  slots := []
  metadata := none
  sink := .stdout
  output := []
  samples := []
  schedule := []
  freeCtr := 0

end Sys2Proof.Machine
end

