-- ==== Sys2Proof/Machine/Ops.lean ====
section
/-! DEFINITION. The named operations over the ports, the instances and the host's errors. -/

namespace Sys2Proof.Machine

/-! ### A port -/

/-- What a read of `code_out` finds. -/
inductive View where
  /-- A settled output shows this value (R22). -/
  | shows (c : CodeWord)
  /-- Any value: the input has not been driven, or the output is settling (R86, R89). -/
  | anyValue
  /-- The input has a wire that is not binary, so there is no output (R85). -/
  | noOutput
  deriving DecidableEq, Repr

/-- What `code_out` shows: after the propagation delay it is ENC of the input wires and of nothing else (R22, R88);
before the first drive (R86) and while settling (R89) it is any value; an input that has been driven and is not
binary has no output (R85). DEDUCED, log entry 6: the first drive comes before the check of R85; safe. -/
def Port.view (p : Port) : View :=
  match p.settle with
  | .undriven => .anyValue
  | .settling _ =>
    match decodePort p.dataIn with
    | .ok _ => .anyValue
    | .error _ => .noOutput
  | .settled =>
    match decodePort p.dataIn with
    | .ok (.encode d) => .shows (ENC d)
    | .error _ => .noOutput

/-- Put levels on the input wires. The settling starts when some wire changes (R88 "the last change of `data_in`");
putting the levels there are on them changes nothing (R22 "stays equal while `data_in` stays stable"). DEDUCED,
log entry 7: unsafe for a driver that lets the wires move meanwhile. -/
def Port.drive (p : Port) (wires : DataPort) : Port :=
  if p.dataIn = wires then p else ⟨wires, .settling 0⟩

/-- Let `ticks` of time pass with the input stable: after `T_PD` the output is settled (R88). -/
def Port.elapse (p : Port) (ticks : Nat) : Port :=
  match p.settle with
  | .settling t => if Config.T_PD ≤ t + ticks then { p with settle := .settled } else { p with settle := .settling (t + ticks) }
  | _ => p

/-- One whole use of the port as the adapter makes it: the word is driven on every wire and held until the output
has settled (R64, R88: one atomic step). DESIGN CHOICE, log entry 22: the word stays on the wires after the host has
sampled; unsafe for a claim about the port after a use, if a host lets go of the wires then. -/
def Port.hold (d : DataWord) : Port := ⟨encodePort (.encode d), .settled⟩

/-! ### The instances -/

/-- `N_INST` (R65). -/
def Bank.size (b : Bank) : Nat := b.others.length + 1

/-- Instance j, for j below `N_INST`; the first one otherwise. -/
def Bank.get (b : Bank) : Nat → Port
  | 0 => b.first
  | j + 1 => b.others.getD j b.first

/-- Change instance j alone (R23, R81: instances share nothing). -/
def Bank.set (b : Bank) (j : Nat) (p : Port) : Bank :=
  match j with
  | 0 => { b with first := p }
  | j + 1 => { b with others := b.others.set j p }

/-- The same change to every instance. -/
def Bank.map (f : Port → Port) (b : Bank) : Bank := ⟨f b.first, b.others.map f⟩

/-! ### The host's choice for the next use -/

/-- The next entry of the schedule; the first block on the first instance when there is none (R65: "The
reference design processes blocks sequentially"). DESIGN CHOICE, log entry 3: safe. -/
def State.choice (s : State) : Choice := s.schedule.headD ⟨0, 0⟩

/-- The instance of the next use: every schedule names one that exists (DESIGN CHOICE, log entry 3: safe). -/
def State.unit (s : State) : Nat := s.choice.unit % s.ports.size

/-! ### Sampling -/

/-- The host has read `c` from a `code_out` (R64 `w := code_out`). -/
def State.record (s : State) (c : CodeWord) : State := { s with samples := c :: s.samples }

/-- The host has read a free value (R86, R89). -/
def State.recordFree (s : State) : State :=
  { s with samples := Config.unsettledCode s.freeCtr :: s.samples, freeCtr := s.freeCtr + 1 }

/-- Read instance j's `code_out`: no side effect on the block (R26). -/
def sampleUnit (j : Nat) (s : State) : Host.Outcome State Fault Refusal :=
  match (s.ports.get j).view with
  | .shows c => .next (s.record c)
  | .anyValue => .next s.recordFree
  | .noOutput => .refused .inputNotBinary

/-! ### The host's errors (60_exceptions.md section 2) -/

/-- The classes of the errors. -/
inductive ErrorClass where
  | inputError
  | outputError
  | contractError
  deriving DecidableEq, Repr

/-- The spec's codes (60_exceptions.md section 2, D7). -/
def HostError.code : HostError → Nat
  | .inputError _ => 1
  | .outputError => 2
  | .contract (.invalidBlockLength _) => 3
  | .contract (.invalidBitValue _) => 4

/-- The class of an error (60_exceptions.md section 2). -/
def HostError.cls : HostError → ErrorClass
  | .inputError _ => .inputError
  | .outputError => .outputError
  | .contract _ => .contractError

/-- The lines that reached the output before an error. After an InputError nothing else ran (R57, R75), so there
are none; after every other error they are unspecified (R66, R76, D11): a free value. DEDUCED, log entry 8: unsafe for a
host that writes before it reads. -/
def HostError.leftover (e : HostError) (ctr : Nat) : List Text :=
  match e.cls with
  | .inputError => []
  | _ => Config.leftoverLines ctr

/-- ERROR ENTRY, the one operation every error goes through (R76): it saves no state, runs no handler and leaves the
block alone; the invocation ends with the error as its only result, with no Codeword and no metadata (R66). -/
def takeError (e : HostError) (s : State) : State :=
  { s with
    phase := .ended (.err e)
    slots := []
    metadata := none
    output := e.leftover s.freeCtr
    freeCtr := s.freeCtr + 1 }

end Sys2Proof.Machine
end

