-- ==== Sys2Proof/Machine/Encode.lean ====
section
/-! DEFINITION. The family of the block's operations: ENCODE. -/

namespace Sys2Proof.Machine

/-- ENCODE (40_encoder.md R40): `D` stands on every wire of the chosen instance's `data_in`, the output settles, and
the host reads `code_out = ENC(D)` from it, in one atomic step (R64, R88). No flag, no exception, no effect on
another instance (R17, R23, R69). DESIGN CHOICE, log entry 22: the spec does not say what stands on `data_in` once the host
has sampled (R88 (a) asks for the word only until then, R64 has no release step); the word stays there, settled, until
something else is driven. Unsafe for a claim about the port after a use. -/
def execEncode (d : DataWord) (s : State) : Host.Outcome State Fault Refusal :=
  .next { s with ports := s.ports.set s.unit (Port.hold d), samples := ENC d :: s.samples }

end Sys2Proof.Machine
end

