-- ==== Sys2Proof/Machine/HostStream.lean ====
section
/-! DEFINITION. The host's pipeline around the block (41_host_stream.md): filter, Chunker, output, the commands of the
outside world, and the whole-stream function of R68. The adapter, which runs ENCODE, is Machine/Adapter.lean. -/

namespace Sys2Proof.Machine

/-! ### Filter and Chunker -/

/-- The characters of the input, when it can be read (R56, R57). -/
def Source.contents : Source → Option Text
  | .literal t => some t
  | .file c => c

/-- Bit filtering: only the characters '0' and '1' are kept, in order (R56). -/
def filterBits (t : Text) : Text := t.filter isBitChar

/-- The number of DataBlocks, `(L + 25) div 26` (R60). -/
def chunkCount (l : Nat) : Nat := (l + 25) / 26

/-- The number of padding bits, `(26 - (L mod 26)) mod 26` (R61). -/
def paddingCount (l : Nat) : Nat := (26 - l % 26) % 26

/-- Window n, `B[26n .. 26n+25]` as far as the Bitstream goes (R58). -/
def window (bits : Text) (n : Nat) : Text := (bits.drop (26 * n)).take 26

/-- Padding on the right with '0' up to 26 (R59). -/
def padBlock (w : Text) : Text := w ++ List.replicate (26 - w.length) '0'

/-- The Chunker: the padded windows in order (R58 to R60). -/
def chunk (bits : Text) : List Text := (List.range (chunkCount bits.length)).map fun n => padBlock (window bits n)

/-- The three numbers of the summary metadata (R60, R61, R63). -/
def metadataOf (bits : Text) : Metadata :=
  ⟨bits.length, chunkCount bits.length, paddingCount bits.length⟩

/-! ### Output -/

/-- Write one line: none when the write fails (R73; standard output is no cause). DESIGN CHOICE, log entry 11: unsafe if
standard output can fail. -/
def Sink.write : Sink → Option Sink
  | .stdout => some .stdout
  | .file none => some (.file none)
  | .file (some 0) => none
  | .file (some (n + 1)) => some (.file (some n))

/-- Whether n lines can be written. -/
def Sink.accepts : Sink → Nat → Bool
  | .file (some room), n => n ≤ room
  | _, _ => true

/-- The characters of the output: every line ended by the terminator (R64; N19 leaves the terminator open). -/
def renderLines (lines : List Text) : Text := lines.flatMap (· ++ Config.lineTerminator)

/-! ### The steps of an invocation -/

/-- Begin with nothing of an earlier invocation (R77). -/
def State.begin (s : State) (phase : Phase) (slots : List Slot) (sink : Sink) : State :=
  { s with phase := phase, slots := slots, metadata := none, sink := sink, output := [] }

/-- Read and filter the input; an unreadable file is an InputError (R56, R57, R75). -/
def readInput (src : Source) (s : State) : State :=
  match src.contents with
  | none => takeError (.inputError .unreadable) s
  | some t => { s with phase := .chunking (filterBits t) }

/-- Run the Chunker, unless nothing is left to chunk (R57 to R61). -/
def chunkInput (bits : Text) (s : State) : State :=
  if bits = [] then takeError (.inputError .empty) s
  else { s with phase := .encoding, slots := (chunk bits).map fun t => ⟨t, none⟩, metadata := some (metadataOf bits) }

/-- The Codewords so far, in chunk order (R65). -/
def State.codewords (s : State) : List CodeWord := s.slots.filterMap (·.result)

/-- Every block is encoded: the Codewords are to be written, in chunk order (R65, R75). DEDUCED, log entry 9:
unsafe for hand-fed blocks with a failing output. -/
def startWriting (s : State) : State := { s with phase := .writing s.codewords }

/-- Write the next line, or end the invocation with its result when every line is written (R64, R68, R73). -/
def writeOutput (rest : List CodeWord) (s : State) : State :=
  match rest with
  | [] => { s with phase := .ended (.ok s.codewords s.metadata) }
  | c :: cs =>
    match s.sink.write with
    | none => takeError .outputError s
    | some sink => { s with phase := .writing cs, sink := sink, output := s.output ++ [codeText c] }

/-! ### Commands -/

/-- One command of the outside world. -/
def runCommand (c : Command) (s : State) : Host.Outcome State Fault Refusal :=
  match c with
  | .invoke source sink => .next (s.begin (.reading source) [] sink)
  | .blocks texts sink => .next (s.begin .encoding (texts.map fun t => ⟨t, none⟩) sink)
  | .drive j wires =>
    if j < s.ports.size then .next { s with ports := s.ports.set j ((s.ports.get j).drive wires) }
    else .fault (.noSuchInstance j)
  | .wait ticks => .next { s with ports := s.ports.map (·.elapse ticks) }
  | .sample j => if j < s.ports.size then sampleUnit j s else .fault (.noSuchInstance j)
  | .powerCycle => .next { s with ports := s.ports.map fun _ => Port.powerUp }

/-- Take the oldest command; with none the machine stays as it is (DESIGN CHOICE, log entry 13: safe). It is
taken only when no invocation is running (DESIGN CHOICE, log entry 21: unsafe for a disturbed invocation). -/
def nextCommand (s : State) : Host.Outcome State Fault Refusal :=
  match s.commands with
  | [] => .next s
  | c :: rest => runCommand c { s with commands := rest }

/-! ### The whole-stream function -/

/-- The Codeword of a block's text (R68: `ENC(b_n)` with `b_n` the block's port value). -/
def encodeBlock (t : Text) : CodeWord := ENC (dataOfText t)

/-- The host's result as one function of the input and the output's capacity (R68, with the errors of R57 and
R73). -/
def hostResult (src : Source) (sink : Sink) : Result :=
  match src.contents with
  | none => .err (.inputError .unreadable)
  | some t =>
    let bits := filterBits t
    if bits = [] then .err (.inputError .empty)
    else
      let codewords := (chunk bits).map encodeBlock
      if sink.accepts codewords.length then .ok codewords (some (metadataOf bits)) else .err .outputError

end Sys2Proof.Machine
end

