-- ==== Sys2Proof/Machine/Adapter.lean ====
section
/-! DEFINITION. The per-block adapter (41_host_stream.md R64): it fetches the next block's text, makes the contract checks,
runs ENCODE and files the Codeword under its chunk. -/

namespace Sys2Proof.Machine

/-- The blocks that are not encoded yet, from chunk k on, in chunk order and with the operation each decodes to, as
far as the first one that fails a contract check; and that one's error (R64, R75). -/
def scanSlots : Nat → List Slot → List (Nat × Instr) × Option ContractError
  | _, [] => ([], none)
  | k, slot :: rest =>
    match slot.result with
    | some _ => scanSlots (k + 1) rest
    | none =>
      match decodeText slot.text with
      | .error e => ([], some e)
      | .ok i => ((k, i) :: (scanSlots (k + 1) rest).1, (scanSlots (k + 1) rest).2)

/-- What the adapter does next. -/
inductive NextUse where
  /-- Every block is encoded. -/
  | finished
  /-- The first block that is not encoded fails its check (R75: later blocks are not encoded). -/
  | reject (e : ContractError)
  /-- Use the block for chunk k. -/
  | use (k : Nat) (i : Instr)
  deriving DecidableEq, Repr

/-- The fetch: the schedule chooses among the blocks that may go next (R65). A block at or after one that fails its
check may not (R75; DEDUCED, log entry 10: safe for outcomes). -/
def nextUse (s : State) : NextUse :=
  match scanSlots 0 s.slots with
  | ([], none) => .finished
  | ([], some e) => .reject e
  | (u :: us, _) =>
    let chosen := (u :: us).getD (s.choice.block % (us.length + 1)) u
    .use chosen.1 chosen.2

/-- The Codeword just sampled is filed under chunk k, and the choice is spent (R64, R65). -/
def State.file (s : State) (k : Nat) : State :=
  { s with
    slots := s.slots.modify k fun slot => { slot with result := s.samples.head? }
    schedule := s.schedule.tail }

/-- One step of the adapter. -/
def adaptNext (s : State) : Host.Outcome State Fault Refusal :=
  match nextUse s with
  | .finished => .next (startWriting s)
  | .reject e => .next (takeError (.contract e) s)
  | .use k i =>
    match exec i s with
    | .next t => .next (t.file k)
    | .fault r => .fault r
    | .refused r => .refused r

end Sys2Proof.Machine
end

