-- ==== Sys2Proof/Machine/Step.lean ====
section
/-! DEFINITION. One step of the machine: the host's next action. The only instruction fetch is the adapter's. -/

namespace Sys2Proof.Machine

/-- One step: one stage of the running invocation (R56 to R68), with one whole use of the block as one step (R88),
or the next command of the outside world when no invocation is running. DESIGN CHOICE (the shape), log entry 1: safe. -/
def step (s : State) : Host.Outcome State Fault Refusal :=
  match s.phase with
  | .idle => nextCommand s
  | .reading source => .next (readInput source s)
  | .chunking bits => .next (chunkInput bits s)
  | .encoding => adaptNext s
  | .writing rest => .next (writeOutput rest s)
  | .ended _ => nextCommand s

/-- Put a word of the opcode table where the adapter fetches its next block: in front of the blocks, with the host
encoding and the schedule choosing that block (on the instance it was going to use). DEDUCED, log entry 15: safe. -/
def State.withFetchWord (s : State) (nbits w : Nat) : State :=
  { s with
    phase := .encoding
    slots := ⟨tableText nbits w, none⟩ :: s.slots
    schedule := ⟨0, s.choice.unit⟩ :: s.schedule.tail }

end Sys2Proof.Machine
end

