-- ==== Sys2Proof/Safety.lean ====
section
/-! DEFINITION. What holds between steps: the invariant of the machine, and what may be claimed of the block's
output. -/

namespace Sys2Proof.Machine

/-- A port that has not been driven since power-up has no driven wire (R86). -/
def Port.Ok (p : Port) : Prop := p.settle = .undriven → p.dataIn = Vector.replicate 26 .floating

/-- An encoded block holds the ENC of its own text, and its text met the contract checks (R64, R68). -/
def Slot.Ok (slot : Slot) : Prop :=
  ∀ c, slot.result = some c → ∃ d, decodeText slot.text = .ok (.encode d) ∧ c = ENC d

/-- The three numbers fit together: `26 × chunk_count = L + padding_count`, and there are that many blocks (R61). -/
def Metadata.Fits (m : Metadata) (blocks : Nat) : Prop := m.chunks = blocks ∧ 26 * m.chunks = m.bits + m.padding

/-- Every block is encoded. -/
def State.AllEncoded (s : State) : Prop := ∀ slot ∈ s.slots, slot.result.isSome

/-- What the host has written and has still to write is the line of every Codeword, in chunk order (R64, R65). -/
def State.Ordered (s : State) (rest : List CodeWord) : Prop :=
  s.output ++ rest.map codeText = s.codewords.map codeText

/-- What holds in each phase of the pipeline. -/
def State.PhaseOk (s : State) : Prop :=
  match s.phase with
  | .idle => True
  | .reading _ => s.output = []
  | .chunking bits => s.output = [] ∧ (∀ c ∈ bits, isBitChar c)
  | .encoding => s.output = [] ∧ ∀ m, s.metadata = some m → m.Fits s.slots.length
  | .writing rest => s.AllEncoded ∧ s.Ordered rest ∧ ∀ m, s.metadata = some m → m.Fits s.slots.length
  | .ended (.ok codewords metadata) =>
    (∀ c ∈ codewords, IsCodeword c) ∧ s.output = codewords.map codeText
      ∧ ∀ m, metadata = some m → m.Fits codewords.length
  | .ended (.err _) => s.slots = [] ∧ s.metadata = none

/-- The invariant of the machine: every port that was never driven is floating, every encoded block holds the ENC of
its text, and the pipeline's phase agrees with the blocks, the metadata and the lines. -/
def State.Inv (s : State) : Prop :=
  s.ports.first.Ok ∧ (∀ p ∈ s.ports.others, p.Ok) ∧ (∀ slot ∈ s.slots, slot.Ok) ∧ s.PhaseOk

/-- No invocation is running, so the next command may be taken. -/
def State.Resting (s : State) : Prop := s.phase = .idle ∨ ∃ r, s.phase = .ended r

/-- What is not the ports, the blocks or the host's record: the rest of the state (for frames). -/
def State.sameHost (s t : State) : Prop :=
  t.commands = s.commands ∧ t.phase = s.phase ∧ t.slots = s.slots ∧ t.metadata = s.metadata
    ∧ t.sink = s.sink ∧ t.output = s.output ∧ t.schedule = s.schedule

end Sys2Proof.Machine
end

