-- ==== Sys2Proof/Certificates/Slice0/Obligations.lean ====
section
/-! DEFINITION. The statements about the model, in the order of OBLIGATIONS.json. Each docstring names the rule of
spec/ it formalises. -/

open Sys2Proof Sys2Proof.Machine

/-! ### The code -/

/-- R35 with R8: among 1..31 a position is a parity position exactly when it is 1, 2, 4, 8 or 16, which is when its number
has one bit set; the other 26 are the data positions. -/
def Obligations.ParityPositionsArePowersOfTwo : Prop :=
  (∀ i, 1 ≤ i → i ≤ 31 → ((isParityPosition i = true ↔ i ∈ [1, 2, 4, 8, 16])
    ∧ (isParityPosition i = true ↔ natPopcount i = 1) ∧ (isParityPosition i = false ↔ i ∈ dataPositions)))
  ∧ dataPositions = [3, 5, 6, 7, 9, 10, 11, 12, 13, 14, 15, 17, 18, 19, 20, 21, 22, 23, 24, 25, 26, 27, 28, 29, 30, 31]
  ∧ dataPositions.length = 26

/-- R15: the closed form of `pos` gives the data positions in ascending order, and `idx` is its inverse. -/
def Obligations.PosListsDataPositions : Prop :=
  (∀ k, k < 26 → dataPositions[k]? = some (pos k) ∧ idx (pos k) = k) ∧
  (∀ i ∈ dataPositions, idx i < 26 ∧ pos (idx i) = i)

/-- R41: every data bit stands at its position, which is its wire of `code_out`. -/
def Obligations.PlacementPutsEachDataBit : Prop :=
  ∀ (d : DataWord) (k : Nat), k < 26 →
    codeBit (ENC d) (pos k) = dataBit d k ∧ (ENC d).getLsbD (31 - pos k) = d.getLsbD (25 - k)

/-- R42: the parity group of p is the positions with `(i & p) != 0`: p itself and the 15 data positions of the table's
row. -/
def Obligations.ParityGroupsOfTheTable : Prop :=
  (∀ p ∈ parityPositions, ∀ i, i ∈ parityGroup p ↔ (1 ≤ i ∧ i ≤ 31 ∧ i &&& p ≠ 0)) ∧
  (∀ p ∈ parityPositions, (parityGroup p).length = 16 ∧ p ∈ parityGroup p
    ∧ ∀ i ∈ parityGroup p, i ≠ p → i ∈ dataPositions) ∧
  (parityGroup 1).erase 1 = [3, 5, 7, 9, 11, 13, 15, 17, 19, 21, 23, 25, 27, 29, 31] ∧
  (parityGroup 2).erase 2 = [3, 6, 7, 10, 11, 14, 15, 18, 19, 22, 23, 26, 27, 30, 31] ∧
  (parityGroup 4).erase 4 = [5, 6, 7, 12, 13, 14, 15, 20, 21, 22, 23, 28, 29, 30, 31] ∧
  (parityGroup 8).erase 8 = [9, 10, 11, 12, 13, 14, 15, 24, 25, 26, 27, 28, 29, 30, 31] ∧
  (parityGroup 16).erase 16 = [17, 18, 19, 20, 21, 22, 23, 24, 25, 26, 27, 28, 29, 30, 31]

/-- R43: in the finished Codeword the parity bit at p is the exclusive-or of the other bits of its group, so that the whole
group XORs to zero; all of those others stand at data positions. -/
def Obligations.ParityBitIsXorOfItsGroup : Prop :=
  ∀ (d : DataWord), ∀ p ∈ parityPositions,
    codeBit (ENC d) p = xorBits (((parityGroup p).filter (· != p)).map (codeBit (ENC d)))
    ∧ xorBits ((parityGroup p).map (codeBit (ENC d))) = false ∧ ∀ i ∈ parityGroup p, i ≠ p → i ∈ dataPositions

/-- R44: each parity bit is `par(D & mask)`, the mask has 15 bits set, and they are the `data_in` bits of the table's
row. -/
def Obligations.ParityEquationsWithMasks : Prop :=
  (∀ (d : DataWord), ∀ p ∈ parityPositions,
    codeBit (ENC d) p = par (d &&& parityMask p) ∧ (ENC d).getLsbD (31 - p) = par (d &&& parityMask p)
    ∧ popcount (parityMask p) = 15
    ∧ codeBit (ENC d) p = xorBits ((parityInputBits p).map fun b => d.getLsbD b)
    ∧ (parityInputBits p).length = 15 ∧ ∀ b, (parityMask p).getLsbD b = true ↔ b ∈ parityInputBits p) ∧
  parityInputBits 1 = [25, 24, 22, 21, 19, 17, 15, 14, 12, 10, 8, 6, 4, 2, 0] ∧
  parityInputBits 2 = [25, 23, 22, 20, 19, 16, 15, 13, 12, 9, 8, 5, 4, 1, 0] ∧
  parityInputBits 4 = [24, 23, 22, 18, 17, 16, 15, 11, 10, 9, 8, 3, 2, 1, 0] ∧
  parityInputBits 8 = [21, 20, 19, 18, 17, 16, 15, 7, 6, 5, 4, 3, 2, 1, 0] ∧
  parityInputBits 16 = [14, 13, 12, 11, 10, 9, 8, 7, 6, 5, 4, 3, 2, 1, 0]

/-- R45: no other parity position lies in a parity group, and computing the five parity bits in any order gives the same
Codeword. -/
def Obligations.ParityOrderDoesNotMatter : Prop :=
  (∀ p ∈ parityPositions, ∀ q ∈ parityPositions, p ≠ q → q &&& p = 0 ∧ q ∉ parityGroup p) ∧
  (∀ (d : DataWord) (ps : List Nat), ps.Perm parityPositions →
    assemble (fillParity ps (place d 0 positions)) = ENC d)

/-- R46: the Codeword assembled from its positions is the closed form with field widths 1, 1, 1, 1, 3, 1, 7, 1, 15, and its
low 15 bits are those of the input. -/
def Obligations.CodewordInClosedForm : Prop :=
  ∀ (d : DataWord), ENC d = closedForm d ∧ (ENC d).extractLsb' 0 15 = d.extractLsb' 0 15
    ∧ ∀ i, 1 ≤ i → i ≤ 31 → (ENC d).getLsbD (31 - i) = bitAt (codewordBits d) i

/-- R40's corner cases and worked example, and the vectors V4, V10 and V15 of 95_test_vectors.md. -/
def Obligations.CornerCasesOfEncode : Prop :=
  ENC 0#26 = 0#31 ∧ ENC 0x3FFFFFF#26 = 0x7FFFFFFF#31 ∧ ENC 0x2800000#26 = 0x5A000000#31
  ∧ ENC 0x2AAAAAA#26 = 0x5A55AAAA#31 ∧ ENC 0x1A6699A#26 = 0x26CC699A#31 ∧ ENC 0x3FFFFFE#26 = 0x177F7FFE#31

/-- R47: every Codeword meets the parity invariant, and for any 31-bit word the invariant is the same as the single
statement that the XOR of the numbers of its set positions is 0. -/
def Obligations.EveryCodewordMeetsParity : Prop :=
  (∀ (d : DataWord), ∀ p ∈ parityPositions, groupXor (ENC d) p = false) ∧
  (∀ (c : CodeWord), (∀ p ∈ parityPositions, groupXor c p = false) ↔ positionXor c = 0)

/-- The end of 30_encoding.md: the words that occur on `code_out` are exactly the 31-bit words that meet the parity
invariant. -/
def Obligations.ExactlyTheCodewordsOccur : Prop :=
  ∀ (c : CodeWord), IsCodeword c ↔ ∃ d, ENC d = c

/-- R48: the data positions give back the DataBlock, so distinct inputs give distinct outputs. -/
def Obligations.ExtractionGivesBackTheData : Prop :=
  (∀ (d : DataWord), extractData (ENC d) = d ∧ ∀ k, k < 26 → dataBit d k = codeBit (ENC d) (pos k)) ∧
  (∀ (d e : DataWord), ENC d = ENC e → d = e)

/-- R49: any tree of two-input exclusive-or gates over the 15 inputs of a parity bit computes that bit; the reference tree
is one, with 14 gates, 4 deep, 70 gates for the five bits. -/
def Obligations.AnyParityTreeComputesTheBit : Prop :=
  (∀ (d : DataWord), ∀ p ∈ parityPositions, ∀ (t : XorTree), t.inputs.Perm (List.range 15) →
    t.eval (parityInput d p) = codeBit (ENC d) p) ∧
  (referenceTree.inputs = List.range 15 ∧ referenceTree.gates = 14 ∧ referenceTree.depth = 4
    ∧ parityPositions.length * referenceTree.gates = 70)

/-- R50: ENC is linear, keeps 0, and is the XOR of the generator rows that the set bits of its input select. -/
def Obligations.EncodeIsLinear : Prop :=
  (∀ (a b : DataWord), ENC (a ^^^ b) = ENC a ^^^ ENC b) ∧ ENC 0#26 = 0#31 ∧
  (∀ (d : DataWord), ENC d = xorOfRows d)

/-- R54: the generator table: the Codeword of each single-bit DataBlock, and its weight. -/
def Obligations.GeneratorRowsOfSingleBits : Prop :=
  ∀ k, k < 26 → dataBit (singleBit k) k = true ∧ popcount (singleBit k) = 1 ∧ ENC (singleBit k) = generatorRow k
    ∧ popcount (generatorRow k) = 1 + natPopcount (pos k)

/-- R55: changing data bit k changes exactly the bits of row k: the position of that bit and the parity bits of the groups
that position is in. -/
def Obligations.OneDataBitChangesItsRow : Prop :=
  ∀ (d : DataWord) (k : Nat), k < 26 →
    ENC (d ^^^ singleBit k) ^^^ ENC d = generatorRow k ∧
    (∀ i, 1 ≤ i → i ≤ 31 → (codeBit (ENC (d ^^^ singleBit k)) i ≠ codeBit (ENC d) i
      ↔ (i = pos k ∨ (i ∈ parityPositions ∧ pos k ∈ parityGroup i)))) ∧
    (parityPositions.filter fun p => pos k ∈ parityGroup p).length = natPopcount (pos k)

/-- R51: two Codewords of distinct DataBlocks differ in at least 3 positions. -/
def Obligations.DistinctCodewordsDifferInThree : Prop :=
  ∀ (a b : DataWord), a ≠ b → 3 ≤ popcount (ENC a ^^^ ENC b)

/-! ### Formats -/

/-- R27 and R28: which wire carries which data bit, and which wire of `code_out` carries which position. -/
def Obligations.BitsOnTheirWires : Prop :=
  (∀ (d : DataWord) (k : Nat) (_ : k < 26),
    (encodePort (.encode d))[25 - k] = Wire.ofBit (dataBit d k) ∧ d.getLsbD (25 - k) = dataBit d k) ∧
  (∀ (d : DataWord) (i : Nat), 1 ≤ i → i ≤ 31 → (ENC d).getLsbD (31 - i) = bitAt (codewordBits d) i) ∧
  parityPositions.map (31 - ·) = [30, 29, 27, 23, 15]

/-- R14: a block's text shows `d[k]` as its character k (from 0), a Codeword's text shows `c[j]` as its character j
(from 1). -/
def Obligations.TextShowsBitsInOrder : Prop :=
  (∀ (d : DataWord), (dataText d).length = 26 ∧
    ∀ k, k < 26 → (dataText d)[k]? = some (bitChar (dataBit d k))) ∧
  (∀ (c : CodeWord), (codeText c).length = 31 ∧
    ∀ j, 1 ≤ j → j ≤ 31 → (codeText c)[j - 1]? = some (bitChar (codeBit c j)))

/-- R29: the value of `data_in` is the block's text read as a binary number, and the value of `code_out` is the Codeword's
text read so; with the rule's two examples. -/
def Obligations.PortValueIsTheTextsNumber : Prop :=
  (∀ (s : Text) (d : DataWord), decodeText s = .ok (.encode d) → natOfText s = d.toNat) ∧
  (∀ (c : CodeWord), natOfText (codeText c) = c.toNat) ∧
  dataText 0x2800000#26 = '1' :: '0' :: '1' :: List.replicate 23 '0' ∧
  codeText 0x5A000000#31 = '1' :: '0' :: '1' :: '1' :: '0' :: '1' :: List.replicate 25 '0'

/-- Decode and encode agree on the text of a block: every ENCODE, with every operand, decodes back from its text, and every
text that decodes is the text of what it decodes to. -/
def Obligations.BlockTextRoundTrip : Prop :=
  (∀ (i : Instr), i.wellFormed = true → decodeText (encodeText i) = .ok i) ∧
  (∀ (s : Text) (i : Instr), decodeText s = .ok i → encodeText i = s)

/-- Decode and encode agree on the wires: every ENCODE decodes back from its wires, wires that decode are the wires of what
they decode to, and a port is rejected exactly when some wire is not binary. -/
def Obligations.PortRoundTrip : Prop :=
  (∀ (i : Instr), decodePort (encodePort i) = .ok i) ∧
  (∀ (p : DataPort) (i : Instr), decodePort p = .ok i → encodePort i = p) ∧
  (∀ (p : DataPort), decodePort p = .error .wireNotBinary ↔ ∃ b, ∃ h : b < 26, p[b].isBinary = false)

/-- R36 and R37 say that each of the 2^26 input words selects ENCODE with the word as its operand. That a word of the table is
written as a block's text, and that one of more than 26 bits decodes to nothing (the second clause), is the model's
reading (log entry 15, DEDUCED). -/
def Obligations.EveryTableWordSelectsEncode : Prop :=
  ∀ (nbits w : Nat), 26 ≤ nbits →
    (w < 2 ^ 26 → decodeTableWord nbits w = some (.encode (BitVec.ofNat 26 w))) ∧
    (2 ^ 26 ≤ w → w < 2 ^ nbits → decodeTableWord nbits w = none)

/-- Words written out from the spec's encodings: V3, V6, V7 and V10 of 95_test_vectors.md, as text and as wires. -/
def Obligations.WrittenOutWordsDecode : Prop :=
  decodeText ('1' :: '0' :: '1' :: List.replicate 23 '0') = .ok (.encode 0x2800000#26) ∧
  decodeText ('1' :: List.replicate 25 '0') = .ok (.encode 0x2000000#26) ∧
  decodeText (List.replicate 25 '0' ++ ['1']) = .ok (.encode 0x0000001#26) ∧
  decodeText ['0', '1', '1', '0', '1', '0', '0', '1', '1', '0', '0', '1', '1', '0', '1', '0', '0', '1', '1', '0', '0', '1',
    '1', '0', '1', '0'] = .ok (.encode 0x1A6699A#26) ∧
  decodePort ((Vector.replicate 26 .low).set 25 .high) = .ok (.encode 0x2000000#26)

/-- R70 and R71: the two contract errors, what each records, their codes, and that the Chunker's blocks raise neither. The
length is checked before the characters (R75). -/
def Obligations.ContractChecksOfABlock : Prop :=
  (∀ (s : Text) (n : Nat), decodeText s = .error (.invalidBlockLength n) ↔ s.length ≠ 26 ∧ n = s.length) ∧
  (∀ (s : Text) (j : Nat), decodeText s = .error (.invalidBitValue j) ↔
    s.length = 26 ∧ (∃ c, s[j]? = some c ∧ c ≠ '0' ∧ c ≠ '1') ∧ ∀ m, m < j → s[m]? = some '0' ∨ s[m]? = some '1') ∧
  (∀ (n : Nat), (HostError.contract (.invalidBlockLength n)).code = 3 ∧
    (HostError.contract (.invalidBitValue n)).code = 4 ∧ (HostError.contract (.invalidBlockLength n)).cls = .contractError
    ∧ (HostError.contract (.invalidBitValue n)).cls = .contractError) ∧
  (∀ (t : Text), ∀ b ∈ chunk (filterBits t), ∃ d, decodeText b = .ok (.encode d))

/-! ### ENCODE on the machine -/

/-- ENCODE always completes (R40, R64, R69; that the word still stands on the wires after the sample is the model's choice, log
entry 22, and so is the instance that is used, log entry 3): for every operand and every state exec answers a next state in which the chosen
instance carries the word on its wires, shows the closed form of R40 on `code_out`, and the host has read that value. -/
def Obligations.EncodeCompletesWithItsCodeword : Prop :=
  ∀ (d : DataWord) (s : State), ∃ t, exec (.encode d) s = .next t ∧ s.unit < s.ports.size
    ∧ (t.ports.get s.unit).dataIn = encodePort (.encode d)
    ∧ (t.ports.get s.unit).view = .shows (closedForm d) ∧ t.samples = closedForm d :: s.samples

/-- The frame of ENCODE (R17, R23, R40; which instance is used is the model's choice, log entry 3): every other instance, and everything of the host but the value just read, is
unchanged; so are the model's own fields. -/
def Obligations.FrameOfEncode : Prop :=
  ∀ (d : DataWord) (s t : State), exec (.encode d) s = .next t →
    t.ports.size = s.ports.size ∧ (∀ j, j < s.ports.size → j ≠ s.unit → t.ports.get j = s.ports.get j)
    ∧ t.commands = s.commands ∧ t.phase = s.phase ∧ t.slots = s.slots ∧ t.metadata = s.metadata ∧ t.sink = s.sink
    ∧ t.output = s.output ∧ t.schedule = s.schedule ∧ t.freeCtr = s.freeCtr ∧ t.samples.tail = s.samples

/-- R31 with R83: the Codeword of a use depends on its DataBlock alone: two uses of one word from any two states, the state
after power-up among them, read the same value, and a use that follows another reads what it would have read without
it (that the word stays on the port afterwards is the model's choice, log entry 22). -/
def Obligations.UsesAreIndependent : Prop :=
  (∀ (d : DataWord) (s s' t t' : State), exec (.encode d) s = .next t → exec (.encode d) s' = .next t' →
    t.samples.head? = t'.samples.head? ∧ t.samples.head? = some (ENC d)) ∧
  (∀ (d e : DataWord) (s t u v : State), exec (.encode e) s = .next t → exec (.encode d) t = .next u →
    exec (.encode d) s = .next v → u.samples.head? = v.samples.head? ∧ u.ports.get s.unit = v.ports.get s.unit)

/-- A step runs the decoded operation: in the encoding phase, when the adapter fetches the block of chunk k, that block is
open and its text decodes to the operation i, and the step is exec of i with its Codeword filed under chunk k. -/
def Obligations.StepRunsTheFetchedBlock : Prop :=
  ∀ (s : State) (k : Nat) (i : Instr), s.phase = .encoding → nextUse s = .use k i →
    (∃ slot, s.slots[k]? = some slot ∧ slot.result = none ∧ decodeText slot.text = .ok i) ∧
    step s = match exec i s with
      | .next t => .next (t.file k)
      | .fault r => .fault r
      | .refused r => .refused r

/-- The sequential fetch (R64, R65; the form of the schedule is the model's choice, log entry 3): when the first block is open, decodes to i, and the schedule chooses the first of the blocks that may
go, the adapter fetches it. -/
def Obligations.SequentialFetchTakesTheFirstBlock : Prop :=
  ∀ (s : State) (slot : Slot) (rest : List Slot) (i : Instr), s.slots = slot :: rest → slot.result = none →
    decodeText slot.text = .ok i → s.choice.block = 0 → nextUse s = .use 0 i

/-- A word of the opcode table, put where the adapter fetches, is run by the very next step, from every state. Placing a table word
there (`withFetchWord`, `tableText`) is the model's own (log entry 15, DEDUCED): no rule of the spec places it. That the
word stays on the port is log entry 22. What the step then does is ENCODE (R40, R64). -/
def Obligations.FetchedTableWordRuns : Prop :=
  ∀ (s : State) (nbits w : Nat), 26 ≤ nbits → w < 2 ^ 26 →
    ∃ t, step (s.withFetchWord nbits w) = .next t ∧ t.samples = ENC (BitVec.ofNat 26 w) :: s.samples
      ∧ t.ports = s.ports.set s.unit (Port.hold (BitVec.ofNat 26 w))
      ∧ t.slots = ⟨tableText nbits w, some (ENC (BitVec.ofNat 26 w))⟩ :: s.slots

/-! ### The ports -/

/-- R22: a port whose `data_in` has been stable for `T_PD` shows ENC of it, and goes on showing it while `data_in` stays
stable; what it shows depends on `data_in` and on nothing else. That time is counted in ticks is the model's choice (log
entry 5), and so is that driving the word that is there already is no change (log entry 7, DEDUCED). -/
def Obligations.SettledOutputFollowsItsInput : Prop :=
  (∀ (p : Port) (d : DataWord) (n : Nat), p.dataIn = encodePort (.encode d) → p.settle ≠ .undriven → Config.T_PD ≤ n →
    (p.elapse n).view = .shows (ENC d) ∧ (∀ m, ((p.elapse n).elapse m).view = .shows (ENC d))
    ∧ ((p.elapse n).drive (encodePort (.encode d))).view = .shows (ENC d)) ∧
  (∀ (p q : Port), p.settle = .settled → q.settle = .settled → p.dataIn = q.dataIn → p.view = q.view)

/-- R88: driving a word, holding it for `T_PD` and sampling reads ENC of it, and leaves the port as the one atomic step of
ENCODE leaves it (time in ticks: log entry 5; what ENCODE leaves on the wires: log entry 22). The premise that undriven ports float is the model's invariant (StepKeepsInvariant). -/
def Obligations.DriveWaitSampleIsEncode : Prop :=
  ∀ (s : State) (d : DataWord) (j n : Nat) (rest : List Command), s.Inv → s.Resting → j < s.ports.size →
    Config.T_PD ≤ n → s.commands = .drive j (encodePort (.encode d)) :: .wait n :: .sample j :: rest →
    ∃ t, Sys2Proof.core.run 3 s = .next t ∧ t.samples = ENC d :: s.samples ∧ t.ports.get j = Port.hold d
      ∧ t.commands = rest

/-- R86, R88 (b) and R89: a sample before the first drive, or of a binary input that is still settling, completes with a value
nothing constrains (the form of the free value is log entry 4). A drive that changes a wire starts the settling, and the
output is any value as long as less than `T_PD` has passed since then, in one wait or in two (ticks are log entry 5). -/
def Obligations.UnsettledSampleIsFree : Prop :=
  (∀ (s : State) (j : Nat), j < s.ports.size →
    ((s.ports.get j).settle = .undriven ∨
      (∃ d, (s.ports.get j).dataIn = encodePort (.encode d)) ∧ ∃ n, (s.ports.get j).settle = .settling n) →
    ∃ t, runCommand (.sample j) s = .next t ∧ t.samples = Config.unsettledCode s.freeCtr :: s.samples
      ∧ t.freeCtr = s.freeCtr + 1 ∧ t.ports = s.ports) ∧
  (∀ (p : Port) (d : DataWord) (n m : Nat), p.dataIn ≠ encodePort (.encode d) → n + m < Config.T_PD →
    (p.drive (encodePort (.encode d))).settle = .settling 0
    ∧ ((p.drive (encodePort (.encode d))).elapse n).view = .anyValue
    ∧ (((p.drive (encodePort (.encode d))).elapse n).elapse m).view = .anyValue)

/-- R85 (log entry 6): sampling an instance that has been driven and has a wire that is not binary is refused. -/
def Obligations.UnknownInputIsRefused : Prop :=
  ∀ (s : State) (j b : Nat) (h : b < 26), j < s.ports.size → (s.ports.get j).settle ≠ .undriven →
    ((s.ports.get j).dataIn[b] = .unknown ∨ (s.ports.get j).dataIn[b] = .floating) →
    runCommand (.sample j) s = .refused .inputNotBinary

/-- R26: reading a settled `code_out` has no side effect and reading it again gives the same value. -/
def Obligations.SamplingChangesNothing : Prop :=
  ∀ (s t : State) (j : Nat) (c : CodeWord), j < s.ports.size → (s.ports.get j).view = .shows c →
    runCommand (.sample j) s = .next t →
    t.samples = c :: s.samples ∧ t.ports = s.ports ∧ s.sameHost t ∧ t.freeCtr = s.freeCtr
    ∧ ∃ u, runCommand (.sample j) t = .next u ∧ u.samples = c :: c :: s.samples

/-- R23 and R81: driving one instance leaves every other one alone, a wait changes no wire of any, and an instance that does
not exist is a fault (log entry 14). -/
def Obligations.InstancesShareNothing : Prop :=
  (∀ (s t : State) (j : Nat) (w : DataPort), runCommand (.drive j w) s = .next t →
    (t.ports.get j).dataIn = w ∧ (∀ k, k < s.ports.size → k ≠ j → t.ports.get k = s.ports.get k)
    ∧ s.sameHost t ∧ t.samples = s.samples) ∧
  (∀ (s t : State) (n : Nat), runCommand (.wait n) s = .next t →
    (∀ k, k < s.ports.size → (t.ports.get k).dataIn = (s.ports.get k).dataIn) ∧ s.sameHost t ∧ t.samples = s.samples) ∧
  (∀ (s : State) (j : Nat) (w : DataPort), s.ports.size ≤ j →
    runCommand (.drive j w) s = .fault (.noSuchInstance j) ∧ runCommand (.sample j) s = .fault (.noSuchInstance j))

/-! ### The host stream -/

/-- R56: filtering keeps exactly the characters '0' and '1', in order and as often as they occur, whether the input is a
literal or a file. -/
def Obligations.FilterKeepsBitCharacters : Prop :=
  (∀ (t : Text), (filterBits t).Sublist t ∧ (∀ c ∈ filterBits t, c = '0' ∨ c = '1')
    ∧ (filterBits t).count '0' = t.count '0' ∧ (filterBits t).count '1' = t.count '1') ∧
  (∀ (s : State) (t : Text) (src : Source), (src = .literal t ∨ src = .file (some t)) → s.phase = .reading src →
    ∃ u, step s = .next u ∧ u.phase = .chunking (filterBits t) ∧ u.ports = s.ports)

/-- R58, R59, R60 and R62: the Chunker makes `ceil(L/26)` blocks of 26 characters, character i of block n is `B[26n+i]`, the
characters past the end are '0', and the blocks in order are the Bitstream followed by the padding. -/
def Obligations.ChunkerCoversTheStream : Prop :=
  ∀ (bits : Text),
    (chunk bits).length = (bits.length + 25) / 26 ∧ (∀ b ∈ chunk bits, b.length = 26) ∧
    (∀ n i, i < 26 → 26 * n + i < bits.length →
      ∃ b, (chunk bits)[n]? = some b ∧ b[i]? = bits[26 * n + i]?) ∧
    (∀ n i b, (chunk bits)[n]? = some b → i < 26 → bits.length ≤ 26 * n + i → b[i]? = some '0') ∧
    (chunk bits).flatten = bits ++ List.replicate (paddingCount bits.length) '0'

/-- R61: the padding count. -/
def Obligations.PaddingCountArithmetic : Prop :=
  ∀ (l : Nat), paddingCount l = (if l % 26 = 0 then 0 else 26 - l % 26) ∧ 26 * chunkCount l = l + paddingCount l

/-- R57 (that an error is a next state is log entry 8, DEDUCED): an unreadable file, and an input with no '0' or '1', end the invocation with an InputError; no block is made and no
instance is used. -/
def Obligations.NoBitsIsAnInputError : Prop :=
  (∀ (s : State), s.phase = .reading (.file none) →
    ∃ t, step s = .next t ∧ t.phase = .ended (.err (.inputError .unreadable)) ∧ t.ports = s.ports
      ∧ t.samples = s.samples ∧ t.slots = []) ∧
  (∀ (s : State) (src : Source) (t : Text), s.phase = .reading src → src.contents = some t → filterBits t = [] →
    ∃ u, Sys2Proof.core.run 2 s = .next u ∧ u.phase = .ended (.err (.inputError .empty)) ∧ u.ports = s.ports
      ∧ u.samples = s.samples ∧ u.slots = [])

/-- The program P5 and R75 (log entry 8, DEDUCED): an invocation that ends with an InputError has written no line. -/
def Obligations.NoLineAfterAnInputError : Prop :=
  ∀ (s t : State) (c : InputCause), ¬ s.Resting → step s = .next t → t.phase = .ended (.err (.inputError c)) →
    t.output = [] ∧ (HostError.inputError c).code = 1

/-- R75 (its reading under a parallel schedule is log entry 10, the error as a next state log entry 8, both DEDUCED): a block is fetched only when every open block before it passes its contract checks, and an error that
is raised is that of the first open block, with every block before it encoded. -/
def Obligations.ContractErrorsInChunkOrder : Prop :=
  (∀ (s : State) (k : Nat) (i : Instr), nextUse s = .use k i →
    ∀ (j : Nat) (slot : Slot), j < k → s.slots[j]? = some slot → slot.result = none →
      ∃ i', decodeText slot.text = .ok i') ∧
  (∀ (s : State) (e : ContractError), s.phase = .encoding → nextUse s = .reject e →
    step s = .next (takeError (.contract e) s) ∧
    ∃ (k : Nat) (slot : Slot), s.slots[k]? = some slot ∧ slot.result = none ∧ decodeText slot.text = .error e
      ∧ ∀ (j : Nat) (slot' : Slot), j < k → s.slots[j]? = some slot' → slot'.result.isSome = true)

/-- R64, R70 and R71 (the command is log entry 12, the error as a next state log entry 8; the vectors E1 to E4): a block that fails its check, handed straight to the adapter, ends the run
with its contract error in two steps, and no instance is used. -/
def Obligations.HandFedBadBlockEndsInItsError : Prop :=
  ∀ (s : State) (text : Text) (later : List Text) (sink : Sink) (rest : List Command) (e : ContractError), s.Resting →
    s.commands = .blocks (text :: later) sink :: rest → decodeText text = .error e →
    ∃ t, Sys2Proof.core.run 2 s = .next t ∧ t.phase = .ended (.err (.contract e)) ∧ t.ports = s.ports
      ∧ t.samples = s.samples ∧ t.commands = rest

/-- R66, R76 and D11, in the form of log entry 8 (DEDUCED: the error is a next state, the blocks are dropped, and the lines are a
free value taken by the counter): whichever step of a running invocation ends it with an error, that error is all the result there is: no
Codeword, no metadata, no change to the block; the lines that reached the output are a free value after an
OutputError and after a contract error. -/
def Obligations.AnErrorIsTheOnlyResult : Prop :=
  ∀ (s t : State) (e : HostError), ¬ s.Resting → step s = .next t → t.phase = .ended (.err e) →
    t.slots = [] ∧ t.codewords = [] ∧ t.metadata = none ∧ t.ports = s.ports ∧ t.samples = s.samples
    ∧ t.commands = s.commands ∧ t.freeCtr = s.freeCtr + 1
    ∧ (e.cls ≠ .inputError → t.output = Config.leftoverLines s.freeCtr)

/-- R77: there is no return from an error, and a new invocation begins with nothing of the one that ended. That a step with no
command changes nothing is the model's choice (log entry 13). -/
def Obligations.ErrorsAreTerminal : Prop :=
  ∀ (s : State) (e : HostError), s.phase = .ended (.err e) →
    (s.commands = [] → step s = .next s) ∧
    (∀ src sink rest, s.commands = .invoke src sink :: rest →
      ∃ t, step s = .next t ∧ t.phase = .reading src ∧ t.slots = [] ∧ t.metadata = none ∧ t.output = []
        ∧ t.sink = sink ∧ t.ports = s.ports ∧ t.commands = rest)

/-- R64 and R73: the next line written is the text of the next Codeword, and the output grows by that text and the line's
terminator, which is free (log entry 16); a file that takes no line is an OutputError. That
every other write succeeds, and that standard output never fails, is the model's choice (log entry 11); the error as a
next state is log entry 8. -/
def Obligations.WritingALine : Prop :=
  ∀ (s : State) (c : CodeWord) (rest : List CodeWord), s.phase = .writing (c :: rest) →
    (s.sink = .file (some 0) → ∃ t, step s = .next t ∧ t.phase = .ended (.err .outputError)) ∧
    (s.sink ≠ .file (some 0) → ∃ t, step s = .next t ∧ t.phase = .writing rest
      ∧ t.output = s.output ++ [codeText c] ∧ t.ports = s.ports ∧ t.slots = s.slots
      ∧ renderLines t.output = renderLines s.output ++ (codeText c ++ Config.lineTerminator)
      ∧ (s.sink = .stdout → t.sink = .stdout))

/-- The codes and classes of the error table (60_exceptions.md section 2, D7). -/
def Obligations.ErrorCodesOfTheTable : Prop :=
  (∀ c, (HostError.inputError c).code = 1 ∧ (HostError.inputError c).cls = .inputError) ∧
  (HostError.outputError.code = 2 ∧ HostError.outputError.cls = .outputError) ∧
  (∀ n, (HostError.contract (.invalidBlockLength n)).code = 3
    ∧ (HostError.contract (.invalidBlockLength n)).cls = .contractError) ∧
  (∀ n, (HostError.contract (.invalidBitValue n)).code = 4
    ∧ (HostError.contract (.invalidBitValue n)).cls = .contractError) ∧
  (∀ e e' : HostError, e.code = e'.code → e.cls = e'.cls)

/-- R69: the block never traps, stops or refuses a 26-bit word. The third clause is about the machine and rests on the model's
choices: no step of it stops unless a command of the outside world is taken, because errors are next states (log entry
8), an idle step changes nothing (log entry 13) and commands are taken only at rest (log entry 21). -/
def Obligations.TheBlockNeverStops : Prop :=
  (∀ (d : DataWord) (s : State), ∃ t, exec (.encode d) s = .next t) ∧
  (∀ (d : DataWord), decodePort (encodePort (.encode d)) = .ok (.encode d)) ∧
  (∀ (s : State), (¬ s.Resting ∨ s.commands = []) → ∃ t, step s = .next t)

/-- R17, R23 and R64: while an invocation runs, a step that is not a use of the block changes no port and reads no value, and a
use changes the chosen instance, files the Codeword under its own chunk, spends one choice and changes nothing else. That
no other agent moves a port meanwhile is the model's choice (log entry 21, unsafe for such a claim), and so are the
schedule (log entry 3) and the word left on the port (log entry 22). -/
def Obligations.OnlyUsesTouchThePorts : Prop :=
  ∀ (s t : State), ¬ s.Resting → step s = .next t →
    ((s.phase ≠ .encoding ∨ nextUse s = .finished ∨ ∃ e, nextUse s = .reject e) →
      t.ports = s.ports ∧ t.samples = s.samples ∧ t.schedule = s.schedule) ∧
    (∀ k d, s.phase = .encoding → nextUse s = .use k (.encode d) →
      t.ports = s.ports.set s.unit (Port.hold d) ∧ t.samples = ENC d :: s.samples
      ∧ (∀ j, j < s.ports.size → j ≠ s.unit → t.ports.get j = s.ports.get j)
      ∧ (∃ slot, s.slots[k]? = some slot ∧ slot.result = none ∧ t.slots[k]? = some ⟨slot.text, some (ENC d)⟩)
      ∧ (∀ j, j ≠ k → t.slots[j]? = s.slots[j]?) ∧ t.slots.length = s.slots.length
      ∧ t.schedule = s.schedule.tail ∧ t.phase = .encoding ∧ t.commands = s.commands ∧ t.metadata = s.metadata
      ∧ t.sink = s.sink ∧ t.output = s.output ∧ t.freeCtr = s.freeCtr)

/-- R68 with R31 and R65 (an output that cannot take every line is R73 and log entry 11; the lines after the last encoding are log
entry 9, the error as a next state log entry 8, the form of the schedule log entry 3): an invocation ends with the whole-stream function of its input, for every schedule, every number of
instances and whatever ran before: `Ok` of the Codewords in chunk order with the three numbers, and then the lines
written are the texts of the Codewords in that order, or the error. It takes at most 2m + 5 steps for m blocks. -/
def Obligations.InvocationComputesTheStreamFunction : Prop :=
  ∀ (s : State) (src : Source) (sink : Sink) (rest : List Command), s.Resting →
    s.commands = .invoke src sink :: rest →
    ∃ n t, Sys2Proof.core.run n s = .next t ∧ t.phase = .ended (hostResult src sink) ∧ t.commands = rest
      ∧ (∀ cs md, hostResult src sink = .ok cs md → t.output = cs.map codeText)
      ∧ (∀ text, src.contents = some text → n ≤ 2 * chunkCount (filterBits text).length + 5)

/-! ### The machine -/

/-- Every step keeps the invariant: ports never driven float, encoded blocks hold the ENC of their text, and the phase agrees
with the blocks, the metadata and the lines (R61, R64, R65, and R47 for the Codewords of a result). Three of its clauses
are the model's choices: ports never driven float (log entry 19), every block is encoded while lines are written (log
entry 9), and an error leaves no block and no metadata (log entry 8). -/
def Obligations.StepKeepsInvariant : Prop :=
  ∀ (s t : State), s.Inv → step s = .next t → t.Inv

/-- The machine after power-up meets the invariant. That its wires float (log entry 19, DEDUCED) and that its host is idle and empty
(log entry 20, DESIGN CHOICE) are the model's, not R82's or R86's. -/
def Obligations.ResetMeetsInvariant : Prop :=
  State.reset.Inv

/-- R83 and R86, with R80 and R82: after power-up the `code_out` of every instance is any value, and the first use reads its
Codeword like every later one. The rest is the model's choice: the floating wires (log entry 19), the one instance (log
entry 2), the idle and empty host (log entry 20), the step that changes nothing (log entry 13). A power cycle, taken as a
command when no invocation is running (log entries 18 and 21), brings every port back to its state after power-up,
undriven and floating, and leaves the host's record alone. -/
def Obligations.AfterPowerUp : Prop :=
  (∀ j, j < State.reset.ports.size → (State.reset.ports.get j).view = .anyValue
    ∧ (State.reset.ports.get j).dataIn = Vector.replicate 26 .floating) ∧
  (State.reset.phase = .idle ∧ State.reset.slots = [] ∧ State.reset.commands = [] ∧ step State.reset = .next State.reset) ∧
  (∀ (d : DataWord), ∃ t, exec (.encode d) State.reset = .next t ∧ t.samples = [ENC d]) ∧
  (∀ (s : State) (rest : List Command), s.Resting → s.commands = .powerCycle :: rest →
    ∃ t, step s = .next t ∧ t.ports.size = s.ports.size
      ∧ (∀ j, j < s.ports.size → t.ports.get j = Port.powerUp ∧ (t.ports.get j).settle = .undriven
        ∧ (t.ports.get j).dataIn = Vector.replicate 26 .floating ∧ (t.ports.get j).view = .anyValue)
      ∧ t.commands = rest ∧ t.phase = s.phase ∧ t.slots = s.slots ∧ t.metadata = s.metadata ∧ t.sink = s.sink
      ∧ t.output = s.output ∧ t.samples = s.samples ∧ t.schedule = s.schedule ∧ t.freeCtr = s.freeCtr)
end

