-- ==== Sys2Proof/Laws/Codeword.lean ====
section
/-! SUPPORT. The Codeword bit by bit: one lemma says what all 31 bits of ENC are, and the laws of the code are
read from it (R41, R43, R46). -/

namespace Sys2Proof.Machine

/-! ### Exclusive-or of lists -/

@[simp] theorem xorBits_nil : xorBits [] = false := rfl

@[simp] theorem xorBits_cons (b : Bool) (bs : List Bool) : xorBits (b :: bs) = xor b (xorBits bs) := rfl

@[simp] theorem xorBits_append (as bs : List Bool) : xorBits (as ++ bs) = xor (xorBits as) (xorBits bs) := by
  induction as with
  | nil => simp
  | cons a as ih => simp [ih]

theorem xorBits_perm {as bs : List Bool} (h : as.Perm bs) : xorBits as = xorBits bs := by
  induction h with
  | nil => rfl
  | cons x _ ih => simp [ih]
  | swap x y l => simp [Bool.xor_left_comm]
  | trans _ _ ih₁ ih₂ => exact ih₁.trans ih₂

theorem xorBits_map_xor {α : Type} (f g : α → Bool) (l : List α) :
    xorBits (l.map fun a => xor (f a) (g a)) = xor (xorBits (l.map f)) (xorBits (l.map g)) := by
  induction l with
  | nil => rfl
  | cons a l ih =>
    simp only [List.map_cons, xorBits_cons, ih]
    cases f a <;> cases g a <;> simp

/-- The exclusive-or of bits is the parity of how many are 1 (R12, R44). -/
theorem xorBits_eq_countP {α : Type} (f : α → Bool) (l : List α) :
    xorBits (l.map f) = (l.countP f % 2 == 1) := by
  induction l with
  | nil => rfl
  | cons a l ih =>
    cases h : f a with
    | false => simpa [h] using ih
    | true =>
      rcases Nat.mod_two_eq_zero_or_one (l.countP f) with h0 | h0 <;>
        simp [h, ih, h0, Nat.add_mod]

/-- Dropping list entries by f is masking them with f. -/
theorem xorBits_filter {α : Type} (f g : α → Bool) (l : List α) :
    xorBits ((l.filter f).map g) = xorBits (l.map fun a => f a && g a) := by
  induction l with
  | nil => rfl
  | cons a l ih => cases h : f a <;> simp [h, ih]

/-- Bit b of an exclusive-or of numbers (R47). -/
theorem testBit_foldr_xor (l : List Nat) (b : Nat) :
    (l.foldr (· ^^^ ·) 0).testBit b = xorBits (l.map (·.testBit b)) := by
  induction l with
  | nil => simp
  | cons a l ih => simp [ih]

/-- A tree of gates computes the exclusive-or of its inputs, whatever its shape (R49). -/
theorem XorTree.eval_eq (a : Nat → Bool) (t : XorTree) : t.eval a = xorBits (t.inputs.map a) := by
  induction t with
  | input n => simp [XorTree.eval, XorTree.inputs]
  | gate l r ihl ihr => simp [XorTree.eval, XorTree.inputs, ihl, ihr]

/-! ### Positions -/

theorem mem_parityPositions {p : Nat} : p ∈ parityPositions ↔ p = 1 ∨ p = 2 ∨ p = 4 ∨ p = 8 ∨ p = 16 := by
  simp [parityPositions]

/-- Every position that is not a parity position is the position of a data bit (R15). -/
theorem exists_pos {i : Nat} (h₁ : 1 ≤ i) (h₂ : i ≤ 31) (h : i ∉ parityPositions) : ∃ k, k < 26 ∧ pos k = i := by
  have all : ∀ i ∈ List.range 32, 1 ≤ i → i ∉ parityPositions → ∃ k, k < 26 ∧ pos k = i := by decide
  exact all i (by simp; omega) h₁ h

/-! ### The bits of a Codeword -/

@[simp] theorem dataBit_xor (a b : DataWord) (k : Nat) : dataBit (a ^^^ b) k = xor (dataBit a k) (dataBit b k) := by
  simp [dataBit]

/-- Data bits of one word are data bits of another when the words are equal. -/
theorem data_ext {a b : DataWord} (h : ∀ k < 26, dataBit a k = dataBit b k) : a = b := by
  apply BitVec.eq_of_getLsbD_eq
  intro i hi
  have := h (25 - i) (by omega)
  simpa [dataBit, show 25 - (25 - i) = i by omega] using this

/-- The exclusive-or of the data bits with these numbers. -/
def xorOf (d : DataWord) (ks : List Nat) : Bool := xorBits (ks.map (dataBit d))

theorem xorOf_xor (a b : DataWord) (ks : List Nat) : xorOf (a ^^^ b) ks = xor (xorOf a ks) (xorOf b ks) := by
  rw [xorOf, xorOf, xorOf, ← xorBits_map_xor]
  exact congrArg xorBits (List.map_congr_left fun k _ => dataBit_xor a b k)

/-- ALL OF THE CODEWORD: the pseudocode of R40 evaluated, position 1 first. The five rows of data bit numbers are the
second column of R44's table. -/
theorem codewordBits_eq (d : DataWord) :
    codewordBits d =
      [xorOf d [0, 1, 3, 4, 6, 8, 10, 11, 13, 15, 17, 19, 21, 23, 25],
       xorOf d [0, 2, 3, 5, 6, 9, 10, 12, 13, 16, 17, 20, 21, 24, 25],
       dataBit d 0,
       xorOf d [1, 2, 3, 7, 8, 9, 10, 14, 15, 16, 17, 22, 23, 24, 25],
       dataBit d 1, dataBit d 2, dataBit d 3,
       xorOf d [4, 5, 6, 7, 8, 9, 10, 18, 19, 20, 21, 22, 23, 24, 25],
       dataBit d 4, dataBit d 5, dataBit d 6, dataBit d 7, dataBit d 8, dataBit d 9, dataBit d 10,
       xorOf d [11, 12, 13, 14, 15, 16, 17, 18, 19, 20, 21, 22, 23, 24, 25],
       dataBit d 11, dataBit d 12, dataBit d 13, dataBit d 14, dataBit d 15, dataBit d 16, dataBit d 17,
       dataBit d 18, dataBit d 19, dataBit d 20, dataBit d 21, dataBit d 22, dataBit d 23, dataBit d 24,
       dataBit d 25] := rfl

theorem assemble_codeBit (c : List Bool) {i : Nat} (h₁ : 1 ≤ i) (h₂ : i ≤ 31) :
    codeBit (assemble c) i = bitAt c i := by
  have hi : 31 - i < 31 := by omega
  simp [codeBit, assemble, hi, show 31 - (31 - i) = i by omega]

/-- Position i of the Codeword is element i of the constructed list (R28, R46). -/
theorem ENC_codeBit (d : DataWord) {i : Nat} (h₁ : 1 ≤ i) (h₂ : i ≤ 31) :
    codeBit (ENC d) i = bitAt (codewordBits d) i :=
  assemble_codeBit _ h₁ h₂

/-- Two 31-bit words are equal when they agree at every position (R10, R28). -/
theorem code_ext {a b : CodeWord} (h : ∀ i, 1 ≤ i → i ≤ 31 → codeBit a i = codeBit b i) : a = b := by
  apply BitVec.eq_of_getLsbD_eq
  intro j hj
  have := h (31 - j) (by omega) (by omega)
  simpa [codeBit, show 31 - (31 - j) = j by omega] using this

theorem codeBit_xor (a b : CodeWord) (i : Nat) : codeBit (a ^^^ b) i = xor (codeBit a i) (codeBit b i) := by
  simp [codeBit]

theorem groupXor_xor (a b : CodeWord) (p : Nat) : groupXor (a ^^^ b) p = xor (groupXor a p) (groupXor b p) := by
  rw [groupXor, groupXor, groupXor, ← xorBits_map_xor]
  exact congrArg xorBits (List.map_congr_left fun i _ => codeBit_xor a b i)

/-- The number of 1 bits counted position by position. -/
theorem popcount_eq_countP_positions (c : CodeWord) : popcount c = positions.countP (codeBit c) := by
  have : positions = ((List.range 31).map fun b => 31 - b).reverse := by decide
  rw [this, List.countP_reverse, List.countP_map, popcount]
  apply List.countP_congr
  intro b hb
  have : b < 31 := by simpa using hb
  simp [codeBit, show 31 - (31 - b) = b by omega]

end Sys2Proof.Machine
end

