-- ==== Sys2Proof/Laws/Words.lean ====
section
/-! SUPPORT. What the decoders and encoders say, one lemma per function (R14, R27, R29, R70, R71, R85). -/

namespace Sys2Proof

/-! ### Characters -/

@[simp] theorem charBit_bitChar (b : Bool) : charBit (bitChar b) = b := by cases b <;> rfl

@[simp] theorem isBitChar_bitChar (b : Bool) : isBitChar (bitChar b) = true := by cases b <;> rfl

theorem bitChar_charBit {c : Char} (h : isBitChar c = true) : bitChar (charBit c) = c := by
  simp only [isBitChar, Bool.or_eq_true, beq_iff_eq] at h
  rcases h with rfl | rfl <;> rfl

/-! ### Texts -/

@[simp] theorem dataText_length (d : DataWord) : (dataText d).length = 26 := by simp [dataText]

@[simp] theorem codeText_length (c : CodeWord) : (codeText c).length = 31 := by simp [codeText]

@[simp] theorem textOfNat_length (width v : Nat) : (textOfNat width v).length = width := by simp [textOfNat]

theorem dataText_getElem? (d : DataWord) {k : Nat} (h : k < 26) :
    (dataText d)[k]? = some (bitChar (d.getLsbD (25 - k))) := by
  simp [dataText, h]

theorem codeText_getElem? (c : CodeWord) {j : Nat} (h : j < 31) :
    (codeText c)[j]? = some (bitChar (c.getLsbD (30 - j))) := by
  simp [codeText, h]

theorem textOfNat_getElem? {width : Nat} (v : Nat) {j : Nat} (h : j < width) :
    (textOfNat width v)[j]? = some (bitChar (v.testBit (width - 1 - j))) := by
  simp [textOfNat, h]

theorem isBitChar_of_mem_dataText {d : DataWord} {c : Char} (h : c ∈ dataText d) : isBitChar c = true := by
  simp only [dataText, List.mem_map] at h
  obtain ⟨_, -, rfl⟩ := h
  simp

theorem isBitChar_of_mem_textOfNat {width v : Nat} {c : Char} (h : c ∈ textOfNat width v) :
    isBitChar c = true := by
  simp only [textOfNat, List.mem_map] at h
  obtain ⟨_, -, rfl⟩ := h
  simp

/-- Bit b of a text's word is the bit of its character 25 - b. -/
theorem dataOfText_getLsbD (s : Text) {b : Nat} (h : b < 26) :
    (dataOfText s).getLsbD b = charBit (s.getD (25 - b) '0') := by
  simp [dataOfText, h]

@[simp] theorem dataOfText_dataText (d : DataWord) : dataOfText (dataText d) = d := by
  apply BitVec.eq_of_getLsbD_eq
  intro b hb
  rw [dataOfText_getLsbD _ hb, List.getD_eq_getElem?_getD, dataText_getElem? _ (by omega)]
  simp [show 25 - (25 - b) = b by omega]

theorem dataOfText_textOfNat (v : Nat) : dataOfText (textOfNat 26 v) = BitVec.ofNat 26 v := by
  apply BitVec.eq_of_getLsbD_eq
  intro b hb
  rw [dataOfText_getLsbD _ hb, List.getD_eq_getElem?_getD, textOfNat_getElem? _ (by omega)]
  rw [BitVec.getLsbD_ofNat]
  simp [show 26 - 1 - (25 - b) = b by omega, hb]

/-! ### The text decoder -/

theorem firstBadChar_eq_none {s : Text} : firstBadChar s = none ↔ ∀ c ∈ s, isBitChar c = true := by
  simp [firstBadChar]

theorem blockWellFormed_iff {s : Text} :
    blockWellFormed s = true ↔ s.length = 26 ∧ ∀ c ∈ s, isBitChar c = true := by
  simp [blockWellFormed, blockLengthOk, blockCharsOk, isBitChar]

/-- The decoder accepts exactly the texts of DataBlocks, and answers ENCODE of the text's word. -/
theorem decodeText_eq_ok_iff {s : Text} {i : Instr} :
    decodeText s = .ok i ↔ (s.length = 26 ∧ ∀ c ∈ s, isBitChar c = true) ∧ i = .encode (dataOfText s) := by
  unfold decodeText
  split
  · rename_i hl
    split
    · rename_i hb
      have := firstBadChar_eq_none.mp hb
      constructor
      · intro h; cases h; exact ⟨⟨hl, this⟩, rfl⟩
      · rintro ⟨-, rfl⟩; rfl
    · rename_i j hb
      constructor
      · intro h; cases h
      · rintro ⟨⟨-, h⟩, -⟩
        rw [firstBadChar_eq_none.mpr h] at hb
        cases hb
  · rename_i hl
    constructor
    · intro h; cases h
    · rintro ⟨⟨h, -⟩, -⟩; exact absurd h hl

theorem decodeText_of_wellFormed {s : Text} (hl : s.length = 26) (hc : ∀ c ∈ s, isBitChar c = true) :
    decodeText s = .ok (.encode (dataOfText s)) :=
  decodeText_eq_ok_iff.mpr ⟨⟨hl, hc⟩, rfl⟩

/-! ### The wire decoder -/

theorem encodePort_getElem (d : DataWord) {b : Nat} (h : b < 26) :
    (encodePort (.encode d))[b] = Wire.ofBit (d.getLsbD b) := by
  simp only [encodePort, Vector.getElem_ofFn]

@[simp] theorem Wire.isBinary_ofBit (b : Bool) : (Wire.ofBit b).isBinary = true := by cases b <;> rfl

@[simp] theorem Wire.ofBit_beq_high (b : Bool) : (Wire.ofBit b == Wire.high) = b := by cases b <;> rfl

theorem dataOfPort_getLsbD (p : DataPort) {b : Nat} (h : b < 26) :
    (dataOfPort p).getLsbD b = (p[b] == Wire.high) := by
  simp [dataOfPort, h]

@[simp] theorem dataOfPort_encodePort (d : DataWord) : dataOfPort (encodePort (.encode d)) = d := by
  apply BitVec.eq_of_getLsbD_eq
  intro b hb
  rw [dataOfPort_getLsbD _ hb, encodePort_getElem _ hb, Wire.ofBit_beq_high]

/-- The block accepts exactly the ports whose wires are all binary, and answers ENCODE of their word. -/
theorem decodePort_eq_ok_iff {p : DataPort} {i : Instr} :
    decodePort p = .ok i ↔ (∀ b (h : b < 26), p[b].isBinary = true) ∧ i = .encode (dataOfPort p) := by
  have hall : p.toList.all Wire.isBinary = true ↔ ∀ b (h : b < 26), p[b].isBinary = true := by
    rw [List.all_eq_true]
    constructor
    · intro h b hb; exact h _ (by simp)
    · intro h w hw
      obtain ⟨b, hb, rfl⟩ := List.getElem_of_mem hw
      simpa using h b (by simpa using hb)
  unfold decodePort
  split
  · rename_i h
    constructor
    · intro e; cases e; exact ⟨hall.mp h, rfl⟩
    · rintro ⟨-, rfl⟩; rfl
  · rename_i h
    constructor
    · intro e; cases e
    · rintro ⟨e, -⟩; exact absurd (hall.mpr e) h

@[simp] theorem decodePort_encodePort (d : DataWord) : decodePort (encodePort (.encode d)) = .ok (.encode d) := by
  rw [decodePort_eq_ok_iff]
  refine ⟨fun b hb => ?_, by simp⟩
  rw [encodePort_getElem _ hb, Wire.isBinary_ofBit]

end Sys2Proof
end

