-- ==== Sys2Proof/Laws/HostStream.lean ====
section
/-! SUPPORT. The filter and the Chunker (R56, R58 to R62), and the output (R64, R73). -/

namespace Sys2Proof.Machine

theorem isBitChar_of_mem_filterBits {t : Text} {c : Char} (h : c ∈ filterBits t) : isBitChar c = true := by
  simpa using (List.mem_filter.mp h).2

theorem chunkCount_mul (l : Nat) : 26 * chunkCount l = l + paddingCount l := by
  unfold chunkCount paddingCount; omega

@[simp] theorem chunk_length (bits : Text) : (chunk bits).length = chunkCount bits.length := by simp [chunk]

theorem window_length (bits : Text) (n : Nat) : (window bits n).length = min 26 (bits.length - 26 * n) := by
  simp [window]

/-- A padded window has exactly 26 characters (R59). -/
@[simp] theorem padBlock_window_length (bits : Text) (n : Nat) : (padBlock (window bits n)).length = 26 := by
  simp only [padBlock, List.length_append, List.length_replicate, window_length]
  omega

/-- Every block the Chunker makes meets both contract checks (R70, R71). -/
theorem chunk_wellFormed {bits : Text} (hb : ∀ c ∈ bits, isBitChar c = true) {t : Text} (ht : t ∈ chunk bits) :
    t.length = 26 ∧ ∀ c ∈ t, isBitChar c = true := by
  simp only [chunk, List.mem_map] at ht
  obtain ⟨n, -, rfl⟩ := ht
  refine ⟨padBlock_window_length _ _, fun c hc => ?_⟩
  rcases List.mem_append.mp hc with h | h
  · exact hb c (List.mem_of_mem_drop (List.mem_of_mem_take h))
  · rw [List.eq_of_mem_replicate h]; rfl

/-- The Chunker's blocks decode to ENCODE of their words. -/
theorem decodeText_of_mem_chunk {bits : Text} (hb : ∀ c ∈ bits, isBitChar c = true) {t : Text} (ht : t ∈ chunk bits) :
    decodeText t = .ok (.encode (dataOfText t)) :=
  decodeText_of_wellFormed (chunk_wellFormed hb ht).1 (chunk_wellFormed hb ht).2

/-- A sink that takes a line takes one line fewer afterwards. -/
theorem Sink.write_accepts {k k' : Sink} (h : k.write = some k') (n : Nat) : k.accepts (n + 1) = k'.accepts n := by
  unfold Sink.write at h
  split at h <;> cases h <;> simp [Sink.accepts]

/-- A sink that takes no line accepts no positive number of them. -/
theorem Sink.write_none {k : Sink} (h : k.write = none) (n : Nat) : k.accepts (n + 1) = false := by
  unfold Sink.write at h
  split at h <;> cases h
  simp [Sink.accepts]

@[simp] theorem Sink.accepts_zero (k : Sink) : k.accepts 0 = true := by
  unfold Sink.accepts; split <;> simp

end Sys2Proof.Machine
end

