-- ==== Sys2Proof/Laws/State.lean ====
section
/-! SUPPORT. One lemma per field per update of the state, so that no later proof unfolds a record update. -/

namespace Sys2Proof.Machine

/-! ### `record` -/

@[simp] theorem record_ports (s : State) (c : CodeWord) : (s.record c).ports = s.ports := rfl
@[simp] theorem record_commands (s : State) (c : CodeWord) : (s.record c).commands = s.commands := rfl
@[simp] theorem record_phase (s : State) (c : CodeWord) : (s.record c).phase = s.phase := rfl
@[simp] theorem record_slots (s : State) (c : CodeWord) : (s.record c).slots = s.slots := rfl
@[simp] theorem record_metadata (s : State) (c : CodeWord) : (s.record c).metadata = s.metadata := rfl
@[simp] theorem record_sink (s : State) (c : CodeWord) : (s.record c).sink = s.sink := rfl
@[simp] theorem record_output (s : State) (c : CodeWord) : (s.record c).output = s.output := rfl
@[simp] theorem record_samples (s : State) (c : CodeWord) : (s.record c).samples = c :: s.samples := rfl
@[simp] theorem record_schedule (s : State) (c : CodeWord) : (s.record c).schedule = s.schedule := rfl
@[simp] theorem record_freeCtr (s : State) (c : CodeWord) : (s.record c).freeCtr = s.freeCtr := rfl

/-! ### `recordFree` -/

@[simp] theorem recordFree_ports (s : State) : (s.recordFree).ports = s.ports := rfl
@[simp] theorem recordFree_commands (s : State) : (s.recordFree).commands = s.commands := rfl
@[simp] theorem recordFree_phase (s : State) : (s.recordFree).phase = s.phase := rfl
@[simp] theorem recordFree_slots (s : State) : (s.recordFree).slots = s.slots := rfl
@[simp] theorem recordFree_metadata (s : State) : (s.recordFree).metadata = s.metadata := rfl
@[simp] theorem recordFree_sink (s : State) : (s.recordFree).sink = s.sink := rfl
@[simp] theorem recordFree_output (s : State) : (s.recordFree).output = s.output := rfl
@[simp] theorem recordFree_samples (s : State) : (s.recordFree).samples = Config.unsettledCode s.freeCtr :: s.samples := rfl
@[simp] theorem recordFree_schedule (s : State) : (s.recordFree).schedule = s.schedule := rfl
@[simp] theorem recordFree_freeCtr (s : State) : (s.recordFree).freeCtr = s.freeCtr + 1 := rfl

/-! ### `takeError` -/

@[simp] theorem takeError_ports (e : HostError) (s : State) : (takeError e s).ports = s.ports := rfl
@[simp] theorem takeError_commands (e : HostError) (s : State) : (takeError e s).commands = s.commands := rfl
@[simp] theorem takeError_phase (e : HostError) (s : State) : (takeError e s).phase = .ended (.err e) := rfl
@[simp] theorem takeError_slots (e : HostError) (s : State) : (takeError e s).slots = [] := rfl
@[simp] theorem takeError_metadata (e : HostError) (s : State) : (takeError e s).metadata = none := rfl
@[simp] theorem takeError_sink (e : HostError) (s : State) : (takeError e s).sink = s.sink := rfl
@[simp] theorem takeError_output (e : HostError) (s : State) : (takeError e s).output = e.leftover s.freeCtr := rfl
@[simp] theorem takeError_samples (e : HostError) (s : State) : (takeError e s).samples = s.samples := rfl
@[simp] theorem takeError_schedule (e : HostError) (s : State) : (takeError e s).schedule = s.schedule := rfl
@[simp] theorem takeError_freeCtr (e : HostError) (s : State) : (takeError e s).freeCtr = s.freeCtr + 1 := rfl

/-! ### `begin` -/

@[simp] theorem begin_ports (s : State) (p : Phase) (l : List Slot) (k : Sink) : (s.begin p l k).ports = s.ports := rfl
@[simp] theorem begin_commands (s : State) (p : Phase) (l : List Slot) (k : Sink) : (s.begin p l k).commands = s.commands := rfl
@[simp] theorem begin_phase (s : State) (p : Phase) (l : List Slot) (k : Sink) : (s.begin p l k).phase = p := rfl
@[simp] theorem begin_slots (s : State) (p : Phase) (l : List Slot) (k : Sink) : (s.begin p l k).slots = l := rfl
@[simp] theorem begin_metadata (s : State) (p : Phase) (l : List Slot) (k : Sink) : (s.begin p l k).metadata = none := rfl
@[simp] theorem begin_sink (s : State) (p : Phase) (l : List Slot) (k : Sink) : (s.begin p l k).sink = k := rfl
@[simp] theorem begin_output (s : State) (p : Phase) (l : List Slot) (k : Sink) : (s.begin p l k).output = [] := rfl
@[simp] theorem begin_samples (s : State) (p : Phase) (l : List Slot) (k : Sink) : (s.begin p l k).samples = s.samples := rfl
@[simp] theorem begin_schedule (s : State) (p : Phase) (l : List Slot) (k : Sink) : (s.begin p l k).schedule = s.schedule := rfl
@[simp] theorem begin_freeCtr (s : State) (p : Phase) (l : List Slot) (k : Sink) : (s.begin p l k).freeCtr = s.freeCtr := rfl

/-! ### `startWriting` -/

@[simp] theorem startWriting_ports (s : State) : (startWriting s).ports = s.ports := rfl
@[simp] theorem startWriting_commands (s : State) : (startWriting s).commands = s.commands := rfl
@[simp] theorem startWriting_phase (s : State) : (startWriting s).phase = .writing s.codewords := rfl
@[simp] theorem startWriting_slots (s : State) : (startWriting s).slots = s.slots := rfl
@[simp] theorem startWriting_metadata (s : State) : (startWriting s).metadata = s.metadata := rfl
@[simp] theorem startWriting_sink (s : State) : (startWriting s).sink = s.sink := rfl
@[simp] theorem startWriting_output (s : State) : (startWriting s).output = s.output := rfl
@[simp] theorem startWriting_samples (s : State) : (startWriting s).samples = s.samples := rfl
@[simp] theorem startWriting_schedule (s : State) : (startWriting s).schedule = s.schedule := rfl
@[simp] theorem startWriting_freeCtr (s : State) : (startWriting s).freeCtr = s.freeCtr := rfl

/-! ### `file` -/

@[simp] theorem file_ports (s : State) (k : Nat) : (s.file k).ports = s.ports := rfl
@[simp] theorem file_commands (s : State) (k : Nat) : (s.file k).commands = s.commands := rfl
@[simp] theorem file_phase (s : State) (k : Nat) : (s.file k).phase = s.phase := rfl
@[simp] theorem file_slots (s : State) (k : Nat) : (s.file k).slots = s.slots.modify k fun slot => { slot with result := s.samples.head? } := rfl
@[simp] theorem file_metadata (s : State) (k : Nat) : (s.file k).metadata = s.metadata := rfl
@[simp] theorem file_sink (s : State) (k : Nat) : (s.file k).sink = s.sink := rfl
@[simp] theorem file_output (s : State) (k : Nat) : (s.file k).output = s.output := rfl
@[simp] theorem file_samples (s : State) (k : Nat) : (s.file k).samples = s.samples := rfl
@[simp] theorem file_schedule (s : State) (k : Nat) : (s.file k).schedule = s.schedule.tail := rfl
@[simp] theorem file_freeCtr (s : State) (k : Nat) : (s.file k).freeCtr = s.freeCtr := rfl

/-! ### `withFetchWord` -/

@[simp] theorem withFetchWord_ports (s : State) (n w : Nat) : (s.withFetchWord n w).ports = s.ports := rfl
@[simp] theorem withFetchWord_commands (s : State) (n w : Nat) : (s.withFetchWord n w).commands = s.commands := rfl
@[simp] theorem withFetchWord_phase (s : State) (n w : Nat) : (s.withFetchWord n w).phase = .encoding := rfl
@[simp] theorem withFetchWord_slots (s : State) (n w : Nat) : (s.withFetchWord n w).slots = ⟨tableText n w, none⟩ :: s.slots := rfl
@[simp] theorem withFetchWord_metadata (s : State) (n w : Nat) : (s.withFetchWord n w).metadata = s.metadata := rfl
@[simp] theorem withFetchWord_sink (s : State) (n w : Nat) : (s.withFetchWord n w).sink = s.sink := rfl
@[simp] theorem withFetchWord_output (s : State) (n w : Nat) : (s.withFetchWord n w).output = s.output := rfl
@[simp] theorem withFetchWord_samples (s : State) (n w : Nat) : (s.withFetchWord n w).samples = s.samples := rfl
@[simp] theorem withFetchWord_schedule (s : State) (n w : Nat) : (s.withFetchWord n w).schedule = ⟨0, s.choice.unit⟩ :: s.schedule.tail := rfl
@[simp] theorem withFetchWord_freeCtr (s : State) (n w : Nat) : (s.withFetchWord n w).freeCtr = s.freeCtr := rfl

end Sys2Proof.Machine
end

