-- ==== Sys2Proof/Laws/Ops.lean ====
section
/-! SUPPORT. What the operations over ports, instances and errors do, one lemma per operation (R22, R23, R66, R85,
R86, R88, R89). -/

namespace Sys2Proof.Machine

/-! ### Ports -/

@[simp] theorem Port.hold_dataIn (d : DataWord) : (Port.hold d).dataIn = encodePort (.encode d) := rfl

@[simp] theorem Port.hold_settle (d : DataWord) : (Port.hold d).settle = .settled := rfl

/-- A port that holds binary levels decodes them as the word it holds. -/
theorem Port.view_of_settled {p : Port} {d : DataWord} (hd : p.dataIn = encodePort (.encode d))
    (hs : p.settle = .settled) : p.view = .shows (ENC d) := by
  simp [Port.view, hs, hd]

@[simp] theorem Port.view_hold (d : DataWord) : (Port.hold d).view = .shows (ENC d) :=
  Port.view_of_settled rfl rfl

theorem Port.view_of_undriven {p : Port} (h : p.settle = .undriven) : p.view = .anyValue := by
  simp [Port.view, h]

theorem Port.view_of_settling {p : Port} {d : DataWord} {t : Nat} (hd : p.dataIn = encodePort (.encode d))
    (hs : p.settle = .settling t) : p.view = .anyValue := by
  simp [Port.view, hs, hd]

/-- A port that has been driven, with a wire that is not binary, has no output (R85). -/
theorem Port.view_of_notBinary {p : Port} {b : Nat} (hb : b < 26) (hw : (p.dataIn[b]).isBinary = false)
    (hs : p.settle ≠ .undriven) : p.view = .noOutput := by
  have he : ∃ e, decodePort p.dataIn = .error e := by
    cases h : decodePort p.dataIn with
    | error e => exact ⟨e, rfl⟩
    | ok i =>
      rw [decodePort_eq_ok_iff] at h
      rw [h.1 b hb] at hw
      cases hw
  obtain ⟨e, he⟩ := he
  unfold Port.view
  split <;> simp_all

theorem Port.drive_same {p : Port} {w : DataPort} (h : p.dataIn = w) : p.drive w = p := by
  simp [Port.drive, h]

theorem Port.drive_change {p : Port} {w : DataPort} (h : p.dataIn ≠ w) : p.drive w = ⟨w, .settling 0⟩ := by
  simp [Port.drive, h]

@[simp] theorem Port.drive_dataIn (p : Port) (w : DataPort) : (p.drive w).dataIn = w := by
  unfold Port.drive; split <;> simp_all

@[simp] theorem Port.elapse_dataIn (p : Port) (t : Nat) : (p.elapse t).dataIn = p.dataIn := by
  unfold Port.elapse
  split
  · split <;> rfl
  · rfl

theorem Port.elapse_of_settled {p : Port} (h : p.settle = .settled) (t : Nat) : p.elapse t = p := by
  simp [Port.elapse, h]

theorem Port.elapse_undriven_iff (p : Port) (t : Nat) : (p.elapse t).settle = .undriven ↔ p.settle = .undriven := by
  unfold Port.elapse
  split
  · rename_i h; split <;> simp [h]
  · rfl

/-- Before `T_PD` a settling port goes on settling (R88, R89). -/
theorem Port.elapse_settling {p : Port} {u t : Nat} (hs : p.settle = .settling u) (ht : u + t < Config.T_PD) :
    p.elapse t = ⟨p.dataIn, .settling (u + t)⟩ := by
  simp [Port.elapse, hs, Nat.not_le.mpr ht]

/-- After `T_PD` a driven port is settled (R88). -/
theorem Port.elapse_settles {p : Port} {t : Nat} (hs : p.settle ≠ .undriven) (ht : Config.T_PD ≤ t) :
    (p.elapse t).settle = .settled := by
  unfold Port.elapse
  split
  · rename_i u h
    have : Config.T_PD ≤ u + t := by omega
    simp [this]
  · cases h : p.settle <;> simp_all

theorem Port.ok_powerUp : Port.powerUp.Ok := fun _ => rfl

theorem Port.ok_hold (d : DataWord) : (Port.hold d).Ok := fun h => by cases h

theorem Port.ok_drive {p : Port} (h : p.Ok) (w : DataPort) : (p.drive w).Ok := by
  unfold Port.drive
  split
  · exact h
  · intro e; cases e

theorem Port.ok_elapse {p : Port} (h : p.Ok) (t : Nat) : (p.elapse t).Ok := fun e => by
  rw [Port.elapse_dataIn]
  exact h ((Port.elapse_undriven_iff p t).mp e)

/-! ### Instances -/

@[simp] theorem Bank.set_size (b : Bank) (j : Nat) (p : Port) : (b.set j p).size = b.size := by
  cases j <;> simp [Bank.set, Bank.size]

@[simp] theorem Bank.map_size (b : Bank) (f : Port → Port) : (b.map f).size = b.size := by
  simp [Bank.map, Bank.size]

theorem Bank.size_pos (b : Bank) : 0 < b.size := Nat.succ_pos _

/-- Reading the instance just changed. -/
theorem Bank.get_set_same {b : Bank} {j : Nat} (h : j < b.size) (p : Port) : (b.set j p).get j = p := by
  cases j with
  | zero => rfl
  | succ j =>
    have : j < b.others.length := by simpa [Bank.size] using h
    simp [Bank.set, Bank.get, this]

/-- Changing one instance leaves every other one alone (R23). -/
theorem Bank.get_set_ne {b : Bank} {j k : Nat} (hk : k < b.size) (h : k ≠ j) (p : Port) :
    (b.set j p).get k = b.get k := by
  cases j with
  | zero =>
    cases k with
    | zero => exact absurd rfl h
    | succ k =>
      have : k < b.others.length := by simpa [Bank.size] using hk
      simp [Bank.set, Bank.get, this]
  | succ j =>
    cases k with
    | zero => rfl
    | succ k =>
      have hjk : j ≠ k := fun e => h (by rw [e])
      simp [Bank.set, Bank.get, hjk]

theorem Bank.get_map {b : Bank} {j : Nat} (h : j < b.size) (f : Port → Port) : (b.map f).get j = f (b.get j) := by
  cases j with
  | zero => rfl
  | succ j =>
    have : j < b.others.length := by simpa [Bank.size] using h
    simp [Bank.map, Bank.get, this]

/-- Every instance of the bank meets `P`. -/
def Bank.All (P : Port → Prop) (b : Bank) : Prop := P b.first ∧ ∀ p ∈ b.others, P p

theorem Bank.All.get {P : Port → Prop} {b : Bank} (h : b.All P) (j : Nat) : P (b.get j) := by
  cases j with
  | zero => exact h.1
  | succ j =>
    simp only [Bank.get, List.getD_eq_getElem?_getD]
    cases e : b.others[j]? with
    | none => exact h.1
    | some p => exact h.2 p (List.mem_of_getElem? e)

theorem Bank.All.set {P : Port → Prop} {b : Bank} (h : b.All P) (j : Nat) {p : Port} (hp : P p) :
    (b.set j p).All P := by
  cases j with
  | zero => exact ⟨hp, h.2⟩
  | succ j =>
    refine ⟨h.1, fun q hq => ?_⟩
    rcases List.mem_or_eq_of_mem_set hq with hq | rfl
    · exact h.2 q hq
    · exact hp

theorem Bank.All.map {P Q : Port → Prop} {b : Bank} (h : b.All P) {f : Port → Port} (hf : ∀ p, P p → Q (f p)) :
    (b.map f).All Q := by
  refine ⟨hf _ h.1, fun q hq => ?_⟩
  simp only [Bank.map, List.mem_map] at hq
  obtain ⟨p, hp, rfl⟩ := hq
  exact hf p (h.2 p hp)

/-- Every schedule names an instance that exists. -/
theorem State.unit_lt (s : State) : s.unit < s.ports.size := Nat.mod_lt _ s.ports.size_pos

/-! ### Sampling and errors -/

/-- What a sample can do. -/
theorem sampleUnit_cases {j : Nat} {s t : State} (h : sampleUnit j s = .next t) :
    (∃ c, (s.ports.get j).view = .shows c ∧ t = s.record c) ∨
    ((s.ports.get j).view = .anyValue ∧ t = s.recordFree) := by
  unfold sampleUnit at h
  split at h
  · rename_i c hv; cases h; exact .inl ⟨c, hv, rfl⟩
  · rename_i hv; cases h; exact .inr ⟨hv, rfl⟩
  · cases h

/-- An InputError leaves no line, every other error a free value (R57, R76). -/
@[simp] theorem leftover_inputError (c : InputCause) (n : Nat) : (HostError.inputError c).leftover n = [] := rfl

@[simp] theorem leftover_outputError (n : Nat) : HostError.outputError.leftover n = Config.leftoverLines n := rfl

@[simp] theorem leftover_contract (e : ContractError) (n : Nat) :
    (HostError.contract e).leftover n = Config.leftoverLines n := by cases e <;> rfl

end Sys2Proof.Machine
end

