-- ==== Sys2Proof/Laws/PerInstr.lean ====
section
/-! SUPPORT. What holds of every operation as syntax, one lemma per constructor of Instr. -/

namespace Sys2Proof.Laws.BlockText

/-- Every operation is well formed, its text has the 26 characters of a DataBlock, and it has one wire per bit (R33,
R36, R38). -/
def Statement (i : Instr) : Prop :=
  i.wellFormed = true ∧ blockWellFormed (encodeText i) = true ∧ (encodePort i).toList.length = 26

theorem encode (d : DataWord) : Statement (.encode d) :=
  ⟨rfl, blockWellFormed_iff.mpr ⟨dataText_length d, fun _ hc => isBitChar_of_mem_dataText hc⟩, by simp⟩

end Sys2Proof.Laws.BlockText
end

