-- ==== Sys2Proof/Laws/Step.lean ====
section
/-! SUPPORT. What ENCODE, the adapter and a step can do, said once (R40, R64, R65, R75). -/

namespace Sys2Proof.Machine

/-! ### ENCODE -/

/-- ENCODE always answers, and this is all it does. -/
@[simp] theorem exec_encode (d : DataWord) (s : State) :
    exec (.encode d) s =
      .next { s with ports := s.ports.set s.unit (Port.hold d), samples := ENC d :: s.samples } := rfl

/-! ### The adapter's fetch -/

/-- What a scan finds: each listed block is open and decodes to what is listed, and every open block before it
decodes; an error is that of the first open block that does not decode. -/
theorem mem_scanSlots {k : Nat} {slots : List Slot} {u : Nat × Instr} (h : u ∈ (scanSlots k slots).1) :
    k ≤ u.1 ∧ ∃ slot, slots[u.1 - k]? = some slot ∧ slot.result = none ∧ decodeText slot.text = .ok u.2 := by
  induction slots generalizing k with
  | nil => simp [scanSlots] at h
  | cons slot rest ih =>
    have later : u ∈ (scanSlots (k + 1) rest).1 → k ≤ u.1 ∧ ∃ sl, (slot :: rest)[u.1 - k]? = some sl ∧ sl.result = none
        ∧ decodeText sl.text = .ok u.2 := by
      intro h
      obtain ⟨hk, sl, hget, hsl⟩ := ih h
      refine ⟨by omega, sl, ?_, hsl⟩
      rwa [show u.1 - k = (u.1 - (k + 1)) + 1 by omega, List.getElem?_cons_succ]
    unfold scanSlots at h
    split at h
    · exact later h
    · rename_i hr
      split at h
      · cases h
      · rename_i i hd
        rcases List.mem_cons.mp h with rfl | h
        · exact ⟨Nat.le_refl _, slot, by simp, hr, hd⟩
        · exact later h

/-- Every open block before a listed one decodes (R75). -/
theorem scanSlots_before {k : Nat} {slots : List Slot} {u : Nat × Instr} (h : u ∈ (scanSlots k slots).1) {j : Nat}
    {slot : Slot} (hj : k + j < u.1) (hget : slots[j]? = some slot) (hr : slot.result = none) :
    ∃ i, decodeText slot.text = .ok i := by
  induction slots generalizing k j with
  | nil => simp at hget
  | cons slot₀ rest ih =>
    unfold scanSlots at h
    cases j with
    | zero =>
      simp only [List.getElem?_cons_zero, Option.some.injEq] at hget
      subst hget
      rw [hr] at h
      cases hd : decodeText slot₀.text with
      | ok i => exact ⟨i, rfl⟩
      | error e => rw [hd] at h; cases h
    | succ j =>
      simp only [List.getElem?_cons_succ] at hget
      split at h
      · exact ih h (by omega) hget
      · split at h
        · cases h
        · rcases List.mem_cons.mp h with rfl | h
          · simp only at hj; omega
          · exact ih h (by omega) hget

/-- A scan that lists nothing and finds no error has found every block encoded. -/
theorem scanSlots_finished {k : Nat} {slots : List Slot} (h : scanSlots k slots = ([], none)) :
    ∀ slot ∈ slots, slot.result.isSome := by
  induction slots generalizing k with
  | nil => simp
  | cons slot rest ih =>
    unfold scanSlots at h
    split at h
    · rename_i c hr
      intro sl hsl
      rcases List.mem_cons.mp hsl with rfl | hsl
      · simp [hr]
      · exact ih h sl hsl
    · split at h
      · cases h
      · simp at h

/-- A scan that lists nothing but finds an error: the first open block fails its check, and every block before it is
encoded (R75). -/
theorem scanSlots_reject {k : Nat} {slots : List Slot} {e : ContractError} (h : scanSlots k slots = ([], some e)) :
    ∃ (j : Nat) (slot : Slot), slots[j]? = some slot ∧ slot.result = none ∧ decodeText slot.text = .error e
      ∧ ∀ i < j, ∀ sl : Slot, slots[i]? = some sl → sl.result.isSome := by
  induction slots generalizing k with
  | nil => simp [scanSlots] at h
  | cons slot rest ih =>
    unfold scanSlots at h
    split at h
    · rename_i c hr
      obtain ⟨j, sl, hget, hn, hd, hbefore⟩ := ih h
      refine ⟨j + 1, sl, by simpa using hget, hn, hd, fun i hi sl' hsl' => ?_⟩
      cases i with
      | zero => simp only [List.getElem?_cons_zero, Option.some.injEq] at hsl'; subst hsl'; simp [hr]
      | succ i => exact hbefore i (by omega) sl' (by simpa using hsl')
    · rename_i hr
      split at h
      · rename_i e' hd
        simp only [Prod.mk.injEq, Option.some.injEq, true_and] at h
        subst h
        exact ⟨0, slot, by simp, hr, hd, fun i hi => absurd hi (Nat.not_lt_zero i)⟩
      · simp at h

/-- What the fetch answers, case by case. -/
theorem nextUse_cases (s : State) :
    (nextUse s = .finished ∧ s.AllEncoded) ∨
    (∃ e, nextUse s = .reject e ∧ scanSlots 0 s.slots = ([], some e)) ∨
    (∃ k i, nextUse s = .use k i ∧ (k, i) ∈ (scanSlots 0 s.slots).1) := by
  unfold nextUse
  split
  · rename_i h; exact .inl ⟨rfl, scanSlots_finished h⟩
  · rename_i e h; exact .inr (.inl ⟨e, rfl, h⟩)
  · rename_i u us e h
    refine .inr (.inr ⟨_, _, rfl, ?_⟩)
    rw [h]
    have hlt : s.choice.block % (us.length + 1) < (u :: us).length := Nat.mod_lt _ (Nat.succ_pos _)
    simp only [List.getD_eq_getElem?_getD, List.getElem?_eq_getElem hlt, Option.getD_some, Prod.mk.eta]
    exact List.getElem_mem hlt

/-- The block a use fetches is open and decodes to the operation that is run. -/
theorem nextUse_use {s : State} {k : Nat} {i : Instr} (h : nextUse s = .use k i) :
    ∃ slot, s.slots[k]? = some slot ∧ slot.result = none ∧ decodeText slot.text = .ok i := by
  rcases nextUse_cases s with ⟨h', -⟩ | ⟨e, h', -⟩ | ⟨k', i', h', hm⟩
  · rw [h'] at h; cases h
  · rw [h'] at h; cases h
  · rw [h'] at h
    cases h
    simpa using (mem_scanSlots hm).2

/-- The state after a use: the port of the chosen instance holds the word, its Codeword is sampled and filed, and the
choice is spent. -/
def State.afterUse (s : State) (k : Nat) (d : DataWord) : State :=
  { s with
    ports := s.ports.set s.unit (Port.hold d)
    samples := ENC d :: s.samples
    slots := s.slots.modify k fun slot => { slot with result := some (ENC d) }
    schedule := s.schedule.tail }

/-- Everything one step of the adapter can do. -/
theorem adaptNext_cases (s : State) :
    (nextUse s = .finished ∧ s.AllEncoded ∧ adaptNext s = .next (startWriting s)) ∨
    (∃ e, nextUse s = .reject e ∧ scanSlots 0 s.slots = ([], some e) ∧ adaptNext s = .next (takeError (.contract e) s)) ∨
    (∃ k d slot, nextUse s = .use k (.encode d) ∧ s.slots[k]? = some slot ∧ slot.result = none
      ∧ decodeText slot.text = .ok (.encode d) ∧ adaptNext s = .next (s.afterUse k d)) := by
  rcases nextUse_cases s with ⟨h, ha⟩ | ⟨e, h, he⟩ | ⟨k, i, h, -⟩
  · exact .inl ⟨h, ha, by simp [adaptNext, h]⟩
  · exact .inr (.inl ⟨e, h, he, by simp [adaptNext, h]⟩)
  · cases i with
    | encode d =>
      obtain ⟨slot, hget, hr, hd⟩ := nextUse_use h
      exact .inr (.inr ⟨k, d, slot, h, hget, hr, hd, by simp [adaptNext, h, State.file, State.afterUse]⟩)

/-- EVERYTHING A STEP CAN DO: what it is in each phase. -/
theorem step_eq (s : State) :
    step s =
      match s.phase with
      | .idle => nextCommand s
      | .reading source => .next (readInput source s)
      | .chunking bits => .next (chunkInput bits s)
      | .encoding => adaptNext s
      | .writing rest => .next (writeOutput rest s)
      | .ended _ => nextCommand s := rfl

theorem step_resting {s : State} (h : s.Resting) : step s = nextCommand s := by
  rcases h with h | ⟨r, h⟩ <;> rw [step_eq, h]

/-- What a command can do when it answers a next state. -/
theorem runCommand_cases {c : Command} {s t : State} (h : runCommand c s = .next t) :
    (∃ source sink, c = .invoke source sink ∧ t = s.begin (.reading source) [] sink) ∨
    (∃ texts sink, c = .blocks texts sink ∧ t = s.begin .encoding (texts.map fun x => ⟨x, none⟩) sink) ∨
    (∃ j w, c = .drive j w ∧ j < s.ports.size ∧ t = { s with ports := s.ports.set j ((s.ports.get j).drive w) }) ∨
    (∃ n, c = .wait n ∧ t = { s with ports := s.ports.map (·.elapse n) }) ∨
    (∃ j, c = .sample j ∧ j < s.ports.size ∧ sampleUnit j s = .next t) ∨
    (c = .powerCycle ∧ t = { s with ports := s.ports.map fun _ => Port.powerUp }) := by
  cases c with
  | invoke source sink => cases h; exact .inl ⟨source, sink, rfl, rfl⟩
  | blocks texts sink => cases h; exact .inr (.inl ⟨texts, sink, rfl, rfl⟩)
  | drive j w =>
    simp only [runCommand] at h
    split at h
    · rename_i hj; cases h; exact .inr (.inr (.inl ⟨j, w, rfl, hj, rfl⟩))
    · cases h
  | wait n => cases h; exact .inr (.inr (.inr (.inl ⟨n, rfl, rfl⟩)))
  | sample j =>
    simp only [runCommand] at h
    split at h
    · rename_i hj; exact .inr (.inr (.inr (.inr (.inl ⟨j, rfl, hj, h⟩))))
    · cases h
  | powerCycle => cases h; exact .inr (.inr (.inr (.inr (.inr ⟨rfl, rfl⟩))))

/-- Running one step and then n more. -/
theorem run_succ {s t : State} (h : step s = .next t) (n : Nat) :
    Sys2Proof.core.run (n + 1) s = Sys2Proof.core.run n t := by
  have : Sys2Proof.core.step s = .next t := h
  simp [Host.Core.run, this]

theorem run_one {s t : State} (h : step s = .next t) : Sys2Proof.core.run 1 s = .next t := by
  rw [run_succ h]; rfl

/-- Running a steps and then b more. -/
theorem run_add {a b : Nat} {s t : State} (h : Sys2Proof.core.run a s = .next t) :
    Sys2Proof.core.run (a + b) s = Sys2Proof.core.run b t := by
  induction a generalizing s with
  | zero => cases h; simp
  | succ a ih =>
    rw [show a + 1 + b = (a + b) + 1 by omega]
    cases hs : step s with
    | next u =>
      rw [run_succ hs] at h ⊢
      exact ih h
    | fault r =>
      have : Sys2Proof.core.step s = .fault r := hs
      simp [Host.Core.run, this] at h
    | refused r =>
      have : Sys2Proof.core.step s = .refused r := hs
      simp [Host.Core.run, this] at h

/-- The phases of a running invocation. -/
theorem running_cases {s : State} (h : ¬ s.Resting) :
    (∃ src, s.phase = .reading src) ∨ (∃ bits, s.phase = .chunking bits) ∨ s.phase = .encoding
      ∨ ∃ rest, s.phase = .writing rest := by
  cases hp : s.phase with
  | idle => exact absurd (.inl hp) h
  | ended r => exact absurd (.inr ⟨r, hp⟩) h
  | reading src => exact .inl ⟨src, rfl⟩
  | chunking bits => exact .inr (.inl ⟨bits, rfl⟩)
  | encoding => exact .inr (.inr (.inl rfl))
  | writing rest => exact .inr (.inr (.inr ⟨rest, rfl⟩))

/-- What reading the input can do (R56, R57). -/
theorem readInput_cases (src : Source) (s : State) :
    (src.contents = none ∧ readInput src s = takeError (.inputError .unreadable) s) ∨
    (∃ t, src.contents = some t ∧ readInput src s = { s with phase := .chunking (filterBits t) }) := by
  unfold readInput
  split
  · rename_i h; exact .inl ⟨h, rfl⟩
  · rename_i t h; exact .inr ⟨t, h, rfl⟩

/-- What the Chunker's step can do (R57, R58). -/
theorem chunkInput_cases (bits : Text) (s : State) :
    (bits = [] ∧ chunkInput bits s = takeError (.inputError .empty) s) ∨
    (bits ≠ [] ∧ chunkInput bits s =
      { s with phase := .encoding, slots := (chunk bits).map fun t => ⟨t, none⟩, metadata := some (metadataOf bits) }) := by
  unfold chunkInput
  split
  · rename_i h; exact .inl ⟨h, rfl⟩
  · rename_i h; exact .inr ⟨h, rfl⟩

/-- What writing can do (R64, R68, R73). -/
theorem writeOutput_cases (rest : List CodeWord) (s : State) :
    (rest = [] ∧ writeOutput rest s = { s with phase := .ended (.ok s.codewords s.metadata) }) ∨
    (∃ c cs, rest = c :: cs ∧ s.sink.write = none ∧ writeOutput rest s = takeError .outputError s) ∨
    (∃ c cs sink, rest = c :: cs ∧ s.sink.write = some sink ∧
      writeOutput rest s = { s with phase := .writing cs, sink := sink, output := s.output ++ [codeText c] }) := by
  cases rest with
  | nil => exact .inl ⟨rfl, rfl⟩
  | cons c cs =>
    cases h : s.sink.write with
    | none => exact .inr (.inl ⟨c, cs, rfl, rfl, by simp [writeOutput, h]⟩)
    | some sink => exact .inr (.inr ⟨c, cs, sink, rfl, rfl, by simp [writeOutput, h]⟩)

/-- When every block is encoded, there is a Codeword for each. -/
theorem codewords_length {s : State} (h : s.AllEncoded) : s.codewords.length = s.slots.length := by
  unfold State.codewords
  rw [List.length_filterMap_eq_countP, List.countP_eq_length]
  exact h

/-- Filing the Codeword of a block's own text keeps every slot right (R64). -/
theorem slots_ok_after_use {slots : List Slot} (hs : ∀ slot ∈ slots, slot.Ok) {k : Nat} {slot : Slot} {d : DataWord}
    (hg : slots[k]? = some slot) (hd : decodeText slot.text = .ok (.encode d)) :
    ∀ sl ∈ slots.modify k fun slot => { slot with result := some (ENC d) }, sl.Ok := by
  intro sl hsl
  obtain ⟨j, hj⟩ := List.mem_iff_getElem?.mp hsl
  rw [List.getElem?_modify] at hj
  split at hj
  · rename_i e
    subst e
    rw [hg] at hj
    simp only [Option.map_eq_map, Option.map_some, Option.some.injEq] at hj
    subst hj
    intro c hc
    simp only [Option.some.injEq] at hc
    exact ⟨d, hd, hc.symm⟩
  · simp only [Option.map_eq_map, Option.map_id_fun', id_eq] at hj
    exact hs sl (List.mem_of_getElem? hj)

end Sys2Proof.Machine
end

