-- ==== Sys2Proof/Tests/Slice0.lean ====
section
/-! SUPPORT. The model's own tests. Expected values are those of 95_test_vectors.md and the tables of 40_encoder.md,
named beside each; the witnesses show that the hypotheses of the statements can be met. -/

namespace Sys2Proof.Tests

open Sys2Proof Sys2Proof.Machine

/-! ### Helpers -/

/-- The machine after power-up with these commands waiting. -/
def resting (cs : List Command) : State := { State.reset with commands := cs }

/-- The host in a phase, with these blocks and two instances. -/
def inPhase (phase : Phase) (slots : List Slot) (schedule : List Choice) (sink : Sink) : State :=
  { State.reset with
    ports := ⟨Port.powerUp, [Port.hold 0x2000000#26]⟩, phase := phase, slots := slots, schedule := schedule, sink := sink }

/-- The next state of a step, for reading one field of it. -/
def nextOf (o : Host.Outcome State Fault Refusal) : State :=
  match o with
  | .next t => t
  | _ => State.reset

/-- '1' followed by zeros: the block of V6. -/
def blockV6 : Text := '1' :: List.replicate 25 '0'

/-- The block of V3 ("101" padded). -/
def blockV3 : Text := '1' :: '0' :: '1' :: List.replicate 23 '0'

/-- E3 of 95_test_vectors.md: 26 characters with an 'a' at index 2. -/
def blockE3 : Text := '1' :: '0' :: 'a' :: List.replicate 23 '0'

/-! ### WellFormed refuses what is ill formed -/

/-- E1: four characters fail the length check. -/
theorem test_length_check_refuses_E1 : blockLengthOk ['1', '0', '1', '0'] = false := by decide

/-- E3: a bad character fails the character check, with the length right. -/
theorem test_char_check_refuses_E3 : blockLengthOk blockE3 = true ∧ blockCharsOk blockE3 = false := by decide

theorem test_wellFormed_accepts_V6 : blockWellFormed blockV6 = true := by decide

/-- R36: no operand of ENCODE is ill formed. -/
theorem test_every_encode_is_wellFormed (d : DataWord) : (Instr.encode d).wellFormed = true := rfl

/-! ### Decoding, from words written out by hand -/

/-- V11: 01010000000000011000011001 is 0x1400619. -/
theorem test_decode_text_V11 :
    decodeText ['0', '1', '0', '1', '0', '0', '0', '0', '0', '0', '0', '0', '0', '0', '0', '1', '1', '0', '0', '0', '0', '1', '1',
      '0', '0', '1'] = .ok (.encode 0x1400619#26) := by decide +kernel

/-- V7: only `d[25]`, which is `data_in[0]` (R27). -/
theorem test_decode_wires_V7 : decodePort ((Vector.replicate 26 .low).set 0 .high) = .ok (.encode 0x0000001#26) := by
  decide +kernel

/-- R37: the table's word 0x2000000 is ENCODE of it. -/
theorem test_decode_table_word : decodeTableWord 26 0x2000000 = some (.encode 0x2000000#26)
    ∧ decodeTableWord 32 0x3FFFFFF = some (.encode 0x3FFFFFF#26) := by decide +kernel

/-- 27 bits are no input word (R33, R38). -/
theorem test_decode_table_word_too_wide : decodeTableWord 32 0x4000000 = none := by decide +kernel

/-- E4: the length is checked before the characters (R75). -/
theorem test_decode_text_E4 : decodeText ['1', 'a', '1'] = .error (.invalidBlockLength 3) := by decide +kernel

/-- E3: the index of the first bad character. -/
theorem test_decode_text_E3 : decodeText blockE3 = .error (.invalidBitValue 2) := by decide +kernel

/-! ### ENCODE -/

/-- V11, V13 and V17: one exec from the state after power-up reads the vector's `code_out`. -/
theorem test_encode_vectors :
    (nextOf (exec (.encode 0x1400619#26) State.reset)).samples = [0x45808619#31]
    ∧ (nextOf (exec (.encode 0x3F942E5#26) State.reset)).samples = [0x7FF2C2E5#31]
    ∧ (nextOf (exec (.encode 0x3FFFFC0#26) State.reset)).samples = [0x3FFFFFC0#31] := by decide +kernel

/-- The table word of V14, placed where the adapter fetches, runs as the first instruction after power-up. -/
theorem test_first_step_runs_table_word :
    (nextOf (step (State.reset.withFetchWord 32 0x3212F2B))).samples = [0x1C42AF2B#31]
    ∧ ((nextOf (step (State.reset.withFetchWord 32 0x3212F2B))).ports.get 0).view = .shows 0x1C42AF2B#31 := by
  decide +kernel

/-! ### The host stream -/

/-- P4: the filter removes characters, not comments: `1 0 1 # rev 1` leaves 1011. -/
theorem test_filter_P4 :
    filterBits ['1', ' ', '0', ' ', '1', ' ', '#', ' ', 'r', 'e', 'v', ' ', '1', '\n'] = ['1', '0', '1', '1'] := by decide

/-- H5: 27 ones make two blocks, the second with 25 padding zeros. -/
theorem test_chunk_H5 : chunk (List.replicate 27 '1') = [List.replicate 26 '1', blockV6]
    ∧ metadataOf (List.replicate 27 '1') = ⟨27, 2, 25⟩ := by decide +kernel

/-- P6: two instances and a schedule that takes the last block first: after that one step the third Codeword is filed
third and the first instance is untouched. -/
theorem test_parallel_use_files_in_chunk_order :
    let s := inPhase .encoding [⟨blockV3, none⟩, ⟨blockV3, none⟩, ⟨blockV6, none⟩] [⟨2, 1⟩] .stdout
    (nextOf (step s)).slots.map (·.result) = [none, none, some 0x70000000#31]
    ∧ (nextOf (step s)).ports.first = Port.powerUp := by decide +kernel

/-- The output line of V3 (P1). -/
theorem test_line_P1 :
    (nextOf (step (inPhase (.writing [0x5A000000#31]) [] [] .stdout))).output
      = ['1' :: '0' :: '1' :: '1' :: '0' :: '1' :: List.replicate 25 '0'] := by decide +kernel

/-- P5: an input without a bit ends with InputError, cause Empty, after the filter has left nothing. -/
theorem test_empty_input_P5 :
    (nextOf (step (inPhase (.chunking (filterBits ['#', ' ', 'n', 'o', 'n', 'e', '\n'])) [] [] .stdout))).phase
      = .ended (.err (.inputError .empty)) := by decide +kernel

/-- E1 on the machine: the adapter raises InvalidBlockLength, which records 4. -/
theorem test_adapter_error_E1 :
    (nextOf (step (inPhase .encoding [⟨['1', '0', '1', '0'], none⟩] [] .stdout))).phase
      = .ended (.err (.contract (.invalidBlockLength 4))) := by decide +kernel

/-- P2 as the whole-stream function: two full blocks, no padding. -/
theorem test_stream_function_P2 :
    hostResult (.literal (List.replicate 26 '1' ++ (List.replicate 13 ['1', '0']).flatten)) .stdout
      = .ok [0x7FFFFFFF#31, 0x5A55AAAA#31] (some ⟨52, 2, 0⟩) := by decide +kernel

/-! ### Witnesses: the hypotheses of the statements can be met -/

/-- Positions and data bit numbers at both ends of their ranges. -/
theorem witness_ranges : (1 ≤ 1 ∧ 1 ≤ 31 ∧ isParityPosition 1 = true) ∧ (1 ≤ 31 ∧ 31 ≤ 31 ∧ isParityPosition 31 = false)
    ∧ pos 0 = 3 ∧ pos 25 = 31 ∧ 16 ∈ parityPositions ∧ 3 ∈ dataPositions := by decide

/-- ParityOrderDoesNotMatter: another order, and two distinct parity positions. -/
theorem witness_parity_order : [16, 8, 4, 2, 1].Perm parityPositions ∧ (1 ∈ parityPositions ∧ 16 ∈ parityPositions ∧ 1 ≠ 16) := by
  decide

/-- AnyParityTreeComputesTheBit: the reference tree's inputs are the 15, and so are those of a chain. -/
theorem witness_parity_tree : referenceTree.inputs.Perm (List.range 15)
    ∧ ((List.range 14).foldr (fun n t => XorTree.gate (.input n) t) (.input 14)).inputs.Perm (List.range 15) := by decide

/-- DistinctCodewordsDifferInThree at its bound: V6 and V1 (X8). -/
theorem witness_distance_three : 0x2000000#26 ≠ 0#26 ∧ popcount (ENC 0x2000000#26 ^^^ ENC 0#26) = 3 := by decide +kernel

/-- ExtractionGivesBackTheData: equal Codewords exist; a word off the code exists (X6). -/
theorem witness_codewords : ENC 0x2800000#26 = ENC 0x2800000#26 ∧ positionXor 0x5A400000#31 = 9 := by decide +kernel

/-- PortValueIsTheTextsNumber, BlockTextRoundTrip, PortRoundTrip: texts and wires that decode, and wires that do not. -/
theorem witness_decodable : decodeText blockV3 = .ok (.encode 0x2800000#26)
    ∧ decodePort (encodePort (.encode 0x2800000#26)) = .ok (.encode 0x2800000#26)
    ∧ decodePort ((Vector.replicate 26 .low).set 25 .unknown) = .error .wireNotBinary := by decide +kernel

/-- EveryTableWordSelectsEncode at the edges of its two clauses. -/
theorem witness_table_words : (26 ≤ 26 ∧ 2 ^ 26 - 1 < 2 ^ 26) ∧ (26 ≤ 27 ∧ 2 ^ 26 ≤ 2 ^ 26 ∧ 2 ^ 26 < 2 ^ 27) := by decide

/-- ContractChecksOfABlock: both errors at the edge of the length check, and a block of the Chunker. -/
theorem witness_contract_checks : decodeText (List.replicate 27 '1') = .error (.invalidBlockLength 27)
    ∧ decodeText (List.replicate 25 '1') = .error (.invalidBlockLength 25)
    ∧ decodeText (List.replicate 25 '1' ++ ['2']) = .error (.invalidBitValue 25)
    ∧ blockV6 ∈ chunk (filterBits ['1']) := by decide +kernel

/-- FrameOfEncode, UsesAreIndependent: exec answers next with another instance present. -/
theorem witness_exec_next : ∃ s t u : State, exec (.encode 5#26) s = .next t ∧ exec (.encode 6#26) t = .next u
    ∧ 1 < s.ports.size ∧ 1 ≠ s.unit :=
  ⟨inPhase .encoding [] [] .stdout, _, _, rfl, rfl, by decide, by decide⟩

/-- StepRunsTheFetchedBlock, SequentialFetchTakesTheFirstBlock, ContractErrorsInChunkOrder: a fetch with an encoded block
before it, and one that may not pass the bad block though the schedule asks for the second. -/
theorem witness_fetch :
    nextUse (inPhase .encoding [⟨blockV6, some 0x70000000#31⟩, ⟨blockV3, none⟩] [] .stdout) = .use 1 (.encode 0x2800000#26)
    ∧ nextUse (inPhase .encoding [⟨blockV3, none⟩, ⟨blockE3, none⟩, ⟨blockV6, none⟩] [⟨1, 0⟩] .stdout)
        = .use 0 (.encode 0x2800000#26)
    ∧ (inPhase .encoding [⟨blockV3, none⟩] [] .stdout).choice.block = 0 := by decide +kernel

/-- ContractErrorsInChunkOrder, its second clause: the first open block fails, after one that is encoded. -/
theorem witness_reject :
    nextUse (inPhase .encoding [⟨blockV6, some 0x70000000#31⟩, ⟨blockE3, none⟩, ⟨blockV3, none⟩] [] .stdout)
      = .reject (.invalidBitValue 2) := by decide +kernel

/-- SettledOutputFollowsItsInput: a port that is settling with a binary word, and two settled ports. -/
theorem witness_settling_port : ∃ (p q : Port) (n : Nat), p.dataIn = encodePort (.encode 1#26) ∧ p.settle ≠ .undriven
    ∧ Config.T_PD ≤ n ∧ q.settle = .settled ∧ q.dataIn = p.dataIn :=
  ⟨⟨encodePort (.encode 1#26), .settling 0⟩, Port.hold 1#26, Config.T_PD, rfl, fun h => Settle.noConfusion h, Nat.le_refl _,
    rfl, rfl⟩

/-- The machine after power-up meets the invariant; it is used as a premise below. -/
theorem resting_inv (cs : List Command) : (resting cs).Inv :=
  ⟨fun _ => rfl, fun _ h => absurd h List.not_mem_nil, fun _ h => absurd h List.not_mem_nil, trivial⟩

/-- DriveWaitSampleIsEncode: the state after power-up with the three commands, the wait at its bound. -/
theorem witness_drive_wait_sample : ∃ (s : State) (n : Nat), s.Inv ∧ s.Resting ∧ 0 < s.ports.size ∧ Config.T_PD ≤ n
    ∧ s.commands = [.drive 0 (encodePort (.encode 1#26)), .wait n, .sample 0] :=
  ⟨resting _, Config.T_PD, resting_inv _, .inl rfl, by decide, Nat.le_refl _, rfl⟩

/-- UnsettledSampleIsFree: a port never driven, and one that is settling. -/
theorem witness_unsettled : (0 < State.reset.ports.size ∧ (State.reset.ports.get 0).settle = .undriven)
    ∧ ((Port.powerUp.drive (encodePort (.encode 1#26))).settle = .settling 0) := by decide +kernel

/-- UnsettledSampleIsFree, its second clause: a port with other levels, and waits that together end just before `T_PD`. -/
theorem witness_wait_too_short : Port.powerUp.dataIn ≠ encodePort (.encode 1#26) ∧ 0 + Config.T_PD_pred < Config.T_PD :=
  ⟨by decide, by simp [Config.T_PD]⟩

/-- UnknownInputIsRefused: one wire unknown, at each end of the port. -/
theorem witness_unknown_wire : ∃ s : State, 0 < s.ports.size ∧ (s.ports.get 0).settle ≠ .undriven
    ∧ (s.ports.get 0).dataIn[25] = .unknown ∧ (s.ports.get 0).dataIn[0] = .floating :=
  ⟨{ State.reset with ports := ⟨⟨(Vector.replicate 26 .floating).set 25 .unknown, .settled⟩, []⟩ }, by decide, by decide,
    by decide +kernel, by decide +kernel⟩

/-- SamplingChangesNothing: a settled instance that shows its Codeword. -/
theorem witness_sample : 1 < (inPhase .idle [] [] .stdout).ports.size
    ∧ ((inPhase .idle [] [] .stdout).ports.get 1).view = .shows 0x70000000#31
    ∧ (nextOf (runCommand (.sample 1) (inPhase .idle [] [] .stdout))).samples = [0x70000000#31] := by decide +kernel

/-- InstancesShareNothing: a drive and a wait that answer next, and an instance that does not exist. -/
theorem witness_instances : (∃ t, runCommand (.drive 1 (encodePort (.encode 1#26))) (inPhase .idle [] [] .stdout) = .next t)
    ∧ (∃ t, runCommand (.wait 3) (inPhase .idle [] [] .stdout) = .next t)
    ∧ (inPhase .idle [] [] .stdout).ports.size ≤ 2 :=
  ⟨⟨_, rfl⟩, ⟨_, rfl⟩, by decide⟩

/-- FilterKeepsBitCharacters, NoBitsIsAnInputError, NoLineAfterAnInputError: sources that read, that do not, and that hold no
bit. -/
theorem witness_sources : (inPhase (.reading (.literal ['1'])) [] [] .stdout).phase = .reading (.literal ['1'])
    ∧ Source.contents (.file (some ['x'])) = some ['x'] ∧ filterBits ['x'] = []
    ∧ (nextOf (step (inPhase (.reading (.file none)) [] [] .stdout))).phase = .ended (.err (.inputError .unreadable)) := by
  decide +kernel

/-- ChunkerCoversTheStream: the last character of a 27-bit stream, and the first padding character after it. -/
theorem witness_windows : (0 < 26 ∧ 26 * 1 + 0 < (List.replicate 27 '1').length)
    ∧ ((chunk (List.replicate 27 '1'))[1]? = some blockV6 ∧ 1 < 26 ∧ (List.replicate 27 '1').length ≤ 26 * 1 + 1) := by
  decide +kernel

/-- HandFedBadBlockEndsInItsError: the three-character block of E4, handed over with a good one behind it. -/
theorem witness_hand_fed : ∃ s : State, s.Resting ∧ s.commands = [.blocks [['1', 'a', '1'], blockV3] .stdout]
    ∧ decodeText ['1', 'a', '1'] = .error (.invalidBlockLength 3) :=
  ⟨resting _, .inl rfl, rfl, by decide +kernel⟩

/-- AnErrorIsTheOnlyResult, WritingALine: a running invocation whose next write fails, and one whose next write does not. -/
theorem witness_writing :
    (nextOf (step (inPhase (.writing [0#31]) [] [] (.file (some 0))))).phase = .ended (.err .outputError)
    ∧ (nextOf (step (inPhase (.writing [0#31]) [] [] (.file (some 1))))).sink = .file (some 0)
    ∧ HostError.outputError.cls ≠ .inputError := by decide +kernel

/-- The running phases are not resting. -/
theorem witness_running : ¬ (inPhase (.writing [0#31]) [] [] (.file (some 0))).Resting
    ∧ ¬ (inPhase .encoding [] [] .stdout).Resting ∧ ¬ (inPhase (.reading (.file none)) [] [] .stdout).Resting := by
  refine ⟨?_, ?_, ?_⟩ <;> (rintro (h | ⟨r, h⟩) <;> cases h)

/-- ErrorsAreTerminal: an invocation ended with an error, with no further command and with one. -/
theorem witness_ended : ∃ s s' : State, s.phase = .ended (.err .outputError) ∧ s.commands = []
    ∧ s'.phase = .ended (.err .outputError) ∧ s'.commands = [.invoke (.literal []) .stdout] :=
  ⟨{ resting [] with phase := .ended (.err .outputError) },
    { resting [.invoke (.literal []) .stdout] with phase := .ended (.err .outputError) }, rfl, rfl, rfl, rfl⟩

/-- AfterPowerUp, its power cycle: a state at rest with an instance that holds a word. -/
theorem witness_power_cycle : ∃ s : State, s.Resting ∧ s.commands = [.powerCycle] ∧ s.ports.first ≠ Port.powerUp :=
  ⟨{ resting [.powerCycle] with ports := ⟨Port.hold 1#26, []⟩ }, .inl rfl, rfl, by decide⟩

/-- OnlyUsesTouchThePorts: a step that is no use, and one that is. -/
theorem witness_uses : nextUse (inPhase .encoding [] [] .stdout) = .finished
    ∧ nextUse (inPhase .encoding [⟨blockV6, none⟩] [⟨0, 1⟩] .stdout) = .use 0 (.encode 0x2000000#26)
    ∧ (inPhase .encoding [⟨blockV6, none⟩] [⟨0, 1⟩] .stdout).unit = 1 := by decide +kernel

/-- InvocationComputesTheStreamFunction, TheBlockNeverStops, StepKeepsInvariant: the state after power-up with one invocation,
whose first step answers next. -/
theorem witness_invocation : ∃ s t : State, s.Inv ∧ s.Resting ∧ s.commands = [.invoke (.literal ['1']) .stdout]
    ∧ step s = .next t ∧ State.reset.commands = [] :=
  ⟨resting _, _, resting_inv _, .inl rfl, rfl, rfl, rfl⟩

end Sys2Proof.Tests
end

section
/-! The statements of 00_scope.md: the block's text form (R14), the positions of the Codeword (R8, R35) and the data
bit permutation (R15). -/

namespace Sys2Proof

/-! ### The text of a block (R14) -/

/-- Character k of a text of 26 bit characters is the character of data bit k of its word. -/
theorem dataText_dataOfText {s : Text} (hl : s.length = 26) (hc : ∀ c ∈ s, isBitChar c = true) :
    dataText (dataOfText s) = s := by
  apply List.ext_getElem?'
  intro k hk
  have hk : k < 26 := by simpa [hl] using hk
  have hs : k < s.length := by omega
  rw [dataText_getElem? _ hk, dataOfText_getLsbD _ (by omega), show 25 - (25 - k) = k by omega,
    List.getD_eq_getElem _ _ hs, bitChar_charBit (hc _ (List.getElem_mem hs)), List.getElem?_eq_getElem hs]

theorem decodeText_dataText (d : DataWord) : decodeText (dataText d) = .ok (.encode d) := by
  rw [decodeText_of_wellFormed (dataText_length d) fun _ => isBitChar_of_mem_dataText, dataOfText_dataText]

/-- Settles O21: on the texts of DataBlocks, which are all that decode, `dataText` and `dataOfText` are inverse to
each other. -/
theorem blockTextRoundTrip : Obligations.BlockTextRoundTrip := by
  constructor
  · rintro ⟨d⟩ -
    exact decodeText_dataText d
  · intro s i h
    obtain ⟨⟨hl, hc⟩, rfl⟩ := decodeText_eq_ok_iff.mp h
    exact dataText_dataOfText hl hc

/-- Settles O19: `d[k]` is bit `25 - k` and `c[j]` is bit `31 - j`, which stands at index `j - 1` of the text. -/
theorem textShowsBitsInOrder : Obligations.TextShowsBitsInOrder := by
  constructor
  · exact fun d => ⟨dataText_length d, fun k hk => dataText_getElem? d hk⟩
  · refine fun c => ⟨codeText_length c, fun j h₁ h₂ => ?_⟩
    rw [codeText_getElem? c (by omega), Machine.codeBit, show 30 - (j - 1) = 31 - j by omega]

end Sys2Proof

namespace Sys2Proof.Machine

/-! ### Parity positions and data positions (R8, R35) -/

theorem mem_positions {i : Nat} : i ∈ positions ↔ 1 ≤ i ∧ i ≤ 31 := by
  simp only [positions, List.mem_range'_1]; omega

theorem isParityPosition_iff {i : Nat} : isParityPosition i = true ↔ i ∈ parityPositions :=
  List.contains_iff_mem

theorem mem_dataPositions {i : Nat} : i ∈ dataPositions ↔ (1 ≤ i ∧ i ≤ 31) ∧ isParityPosition i = false := by
  rw [dataPositions, List.mem_filter, mem_positions, Bool.not_eq_true']

/-- Among the positions the powers of two are those with one bit set, checked on all 31. -/
theorem isParityPosition_iff_natPopcount :
    ∀ i ∈ positions, (isParityPosition i = true ↔ natPopcount i = 1) := by decide

theorem dataPositions_eq : dataPositions =
    [3, 5, 6, 7, 9, 10, 11, 12, 13, 14, 15, 17, 18, 19, 20, 21, 22, 23, 24, 25, 26, 27, 28, 29, 30, 31] := rfl

theorem dataPositions_length : dataPositions.length = 26 := rfl

/-- Settles O1, each equivalence by the membership lemma of its list. -/
theorem parityPositionsArePowersOfTwo : Obligations.ParityPositionsArePowersOfTwo := by
  refine ⟨fun i h₁ h₂ => ⟨isParityPosition_iff, ?_, ?_⟩, dataPositions_eq, dataPositions_length⟩
  · exact isParityPosition_iff_natPopcount i (mem_positions.mpr ⟨h₁, h₂⟩)
  · rw [mem_dataPositions, and_iff_right ⟨h₁, h₂⟩]

/-! ### The data bit permutation (R15) -/

theorem dataPositions_nodup : dataPositions.Nodup := List.Nodup.filter _ List.nodup_range'

/-- R15's closed form, checked at each of its 26 arguments. -/
theorem dataPositions_getElem? : ∀ k, k < 26 → dataPositions[k]? = some (pos k) := by decide

theorem dataPositions_getElem {k : Nat} (h : k < dataPositions.length) : dataPositions[k] = pos k :=
  Option.some_inj.mp ((List.getElem?_eq_getElem h).symm.trans (dataPositions_getElem? k h))

theorem idx_pos {k : Nat} (h : k < 26) : idx (pos k) = k := by
  rw [← dataPositions_getElem (k := k) h]
  exact dataPositions_nodup.idxOf_getElem k h

theorem idx_lt {i : Nat} (h : i ∈ dataPositions) : idx i < 26 := List.idxOf_lt_length_of_mem h

theorem pos_idx {i : Nat} (h : i ∈ dataPositions) : pos (idx i) = i := by
  rw [← dataPositions_getElem (idx_lt h)]
  exact List.getElem_idxOf (idx_lt h)

/-- Settles O2: `idx` looks a position up in a list without repetition, of which `pos` gives the elements. -/
theorem posListsDataPositions : Obligations.PosListsDataPositions :=
  ⟨fun k hk => ⟨dataPositions_getElem? k hk, idx_pos hk⟩, fun _ hi => ⟨idx_lt hi, pos_idx hi⟩⟩

end Sys2Proof.Machine
end

section
/-! The statements of 10_state.md: the settled output (R22), what a use leaves alone (R17, R23) and the independence
of the instances (R23, R81). -/

namespace Sys2Proof.Machine

/-! ### A settled port (R22) -/

/-- A settled output is a function of the input wires. -/
theorem Port.view_congr_of_settled {p q : Port} (hp : p.settle = .settled) (hq : q.settle = .settled)
    (hd : p.dataIn = q.dataIn) : p.view = q.view := by
  unfold Port.view
  rw [hp, hq, hd]

/-- Settles O32: after `T_PD` the port is settled, and then more time or the same levels again leave it as it is. -/
theorem settledOutputFollowsItsInput : Obligations.SettledOutputFollowsItsInput := by
  constructor
  · intro p d n hd hs hn
    have hsettled : (p.elapse n).settle = .settled := Port.elapse_settles hs hn
    have hdata : (p.elapse n).dataIn = encodePort (.encode d) := (Port.elapse_dataIn p n).trans hd
    have hview : (p.elapse n).view = .shows (ENC d) := Port.view_of_settled hdata hsettled
    refine ⟨hview, fun m => ?_, ?_⟩
    · rw [Port.elapse_of_settled hsettled, hview]
    · rw [Port.drive_same hdata, hview]
  · exact fun p q => Port.view_congr_of_settled

/-! ### What is left alone during an invocation (R17, R23, R64) -/

/-- Nothing of the block and of its use has changed: the ports, the values read and the choices to come. -/
def State.sameBlock (s t : State) : Prop :=
  t.ports = s.ports ∧ t.samples = s.samples ∧ t.schedule = s.schedule

theorem takeError_sameBlock (e : HostError) (s : State) : s.sameBlock (takeError e s) := ⟨rfl, rfl, rfl⟩

theorem startWriting_sameBlock (s : State) : s.sameBlock (startWriting s) := ⟨rfl, rfl, rfl⟩

theorem readInput_sameBlock (src : Source) (s : State) : s.sameBlock (readInput src s) := by
  rcases readInput_cases src s with ⟨-, h⟩ | ⟨t, -, h⟩ <;> rw [h]
  · exact takeError_sameBlock _ s
  · exact ⟨rfl, rfl, rfl⟩

theorem chunkInput_sameBlock (bits : Text) (s : State) : s.sameBlock (chunkInput bits s) := by
  rcases chunkInput_cases bits s with ⟨-, h⟩ | ⟨-, h⟩ <;> rw [h]
  · exact takeError_sameBlock _ s
  · exact ⟨rfl, rfl, rfl⟩

theorem writeOutput_sameBlock (rest : List CodeWord) (s : State) : s.sameBlock (writeOutput rest s) := by
  rcases writeOutput_cases rest s with ⟨-, h⟩ | ⟨c, cs, -, -, h⟩ | ⟨c, cs, sink, -, -, h⟩ <;> rw [h]
  · exact ⟨rfl, rfl, rfl⟩
  · exact takeError_sameBlock _ s
  · exact ⟨rfl, rfl, rfl⟩

/-- What a step of the encoding phase is, when the fetch finds a block. -/
theorem step_use {s : State} {k : Nat} {d : DataWord} (hp : s.phase = .encoding) (hu : nextUse s = .use k (.encode d)) :
    step s = .next (s.afterUse k d) := by
  rw [step_eq, hp]
  simp [adaptNext, hu, State.file, State.afterUse]

/-- A running step is one that leaves the block alone, or it is a use. -/
theorem step_running_cases {s t : State} (hr : ¬ s.Resting) (h : step s = .next t) :
    s.sameBlock t ∨ ∃ k d, s.phase = .encoding ∧ nextUse s = .use k (.encode d) := by
  rw [step_eq] at h
  rcases running_cases hr with ⟨src, hp⟩ | ⟨bits, hp⟩ | hp | ⟨rest, hp⟩ <;> rw [hp] at h
  · cases h; exact .inl (readInput_sameBlock src s)
  · cases h; exact .inl (chunkInput_sameBlock bits s)
  · rcases adaptNext_cases s with ⟨-, -, ha⟩ | ⟨e, -, -, ha⟩ | ⟨k, d, slot, hu, -⟩
    · cases ha.symm.trans h; exact .inl (startWriting_sameBlock s)
    · cases ha.symm.trans h; exact .inl (takeError_sameBlock _ s)
    · exact .inr ⟨k, d, hp, hu⟩
  · cases h; exact .inl (writeOutput_sameBlock rest s)

/-- A use files the Codeword under its own block, whose text it keeps (R64). -/
theorem afterUse_slots_self {s : State} {k : Nat} {slot : Slot} (hg : s.slots[k]? = some slot) (d : DataWord) :
    (s.afterUse k d).slots[k]? = some ⟨slot.text, some (ENC d)⟩ := by
  simp [State.afterUse, hg]

/-- A use leaves every other block as it is (R64). -/
theorem afterUse_slots_ne {j k : Nat} (h : j ≠ k) (s : State) (d : DataWord) :
    (s.afterUse k d).slots[j]? = s.slots[j]? :=
  List.getElem?_modify_ne _ _ h.symm

theorem afterUse_slots_length (s : State) (k : Nat) (d : DataWord) :
    (s.afterUse k d).slots.length = s.slots.length :=
  List.length_modify _ _ _

/-- Settles O50: a running step leaves the block alone or is a use, and a use goes to `State.afterUse`. -/
theorem onlyUsesTouchThePorts : Obligations.OnlyUsesTouchThePorts := by
  intro s t hr hstep
  constructor
  · intro hno
    rcases step_running_cases hr hstep with hsame | ⟨k, d, hp, hu⟩
    · exact hsame
    · rcases hno with hp' | hf | ⟨e, he⟩
      · exact absurd hp hp'
      · rw [hf] at hu; cases hu
      · rw [he] at hu; cases hu
  · intro k d hp hu
    obtain ⟨slot, hget, hopen, -⟩ := nextUse_use hu
    cases (step_use hp hu).symm.trans hstep
    exact ⟨rfl, rfl, fun j hj hne => Bank.get_set_ne hj hne _,
      ⟨slot, hget, hopen, afterUse_slots_self hget d⟩, fun j hne => afterUse_slots_ne hne s d,
      afterUse_slots_length s k d, rfl, hp, rfl, rfl, rfl, rfl, rfl⟩

/-! ### The frame of ENCODE (R17, R23, R40) -/

/-- Settles O27: ENCODE sets the chosen instance and puts one value in front of the samples. -/
theorem frameOfEncode : Obligations.FrameOfEncode := by
  intro d s t h
  cases (exec_encode d s).symm.trans h
  exact ⟨Bank.set_size _ _ _, fun j hj hne => Bank.get_set_ne hj hne _, rfl, rfl, rfl, rfl, rfl, rfl, rfl, rfl, rfl⟩

/-! ### Driving, waiting and missing instances (R23, R81) -/

theorem runCommand_drive {s : State} {j : Nat} (hj : j < s.ports.size) (w : DataPort) :
    runCommand (.drive j w) s = .next { s with ports := s.ports.set j ((s.ports.get j).drive w) } :=
  if_pos hj

theorem runCommand_drive_missing {s : State} {j : Nat} (hj : s.ports.size ≤ j) (w : DataPort) :
    runCommand (.drive j w) s = .fault (.noSuchInstance j) :=
  if_neg hj.not_gt

theorem runCommand_sample_missing {s : State} {j : Nat} (hj : s.ports.size ≤ j) :
    runCommand (.sample j) s = .fault (.noSuchInstance j) :=
  if_neg hj.not_gt

theorem runCommand_wait (s : State) (n : Nat) :
    runCommand (.wait n) s = .next { s with ports := s.ports.map (·.elapse n) } := rfl

/-- Settles O37: a drive sets one instance, a wait lets time pass on each, and a missing instance is a fault. -/
theorem instancesShareNothing : Obligations.InstancesShareNothing := by
  refine ⟨fun s t j w h => ?_, fun s t n h => ?_, fun s j w hj => ?_⟩
  · rcases Nat.lt_or_ge j s.ports.size with hj | hj
    · cases (runCommand_drive hj w).symm.trans h
      refine ⟨?_, fun k hk hne => Bank.get_set_ne hk hne _, ⟨rfl, rfl, rfl, rfl, rfl, rfl, rfl⟩, rfl⟩
      rw [Bank.get_set_same hj, Port.drive_dataIn]
    · cases (runCommand_drive_missing hj w).symm.trans h
  · cases (runCommand_wait s n).symm.trans h
    refine ⟨fun k hk => ?_, ⟨rfl, rfl, rfl, rfl, rfl, rfl, rfl⟩, rfl⟩
    rw [Bank.get_map hk, Port.elapse_dataIn]
  · exact ⟨runCommand_drive_missing hj w, runCommand_sample_missing hj⟩

end Sys2Proof.Machine
end

section
/-! The statements of 20_memory.md: the wires of both ports (R27, R28), the words they decode to (R27, R85), port
values as numbers (R29), and what one use or one read leaves for the next (R26, R31). -/

namespace Sys2Proof

/-! ### Texts as binary numbers (R29) -/

theorem natOfText_append_bitChar (s : Text) (b : Bool) : natOfText (s ++ [bitChar b]) = 2 * natOfText s + b.toNat := by
  simp [natOfText]

/-- The last digit of a number is its bit 0, and the digits before it are those of its half. -/
theorem textOfNat_succ (width v : Nat) :
    textOfNat (width + 1) v = textOfNat width (v / 2) ++ [bitChar (v.testBit 0)] := by
  have hdigit : ∀ j ∈ List.range width, bitChar (v.testBit (width - j)) = bitChar ((v / 2).testBit (width - 1 - j)) := by
    intro j hj
    rw [Nat.testBit_div_two, show width - 1 - j + 1 = width - j by have := List.mem_range.mp hj; omega]
  simp [textOfNat, List.range_succ, List.map_congr_left hdigit]

theorem natOfText_textOfNat (width v : Nat) : natOfText (textOfNat width v) = v % 2 ^ width := by
  induction width generalizing v with
  | zero => rw [pow_zero, Nat.mod_one]; rfl
  | succ width ih =>
    rw [textOfNat_succ, natOfText_append_bitChar, ih, pow_succ', Nat.mod_mul, Nat.toNat_testBit]
    omega

theorem natOfText_dataText (d : DataWord) : natOfText (dataText d) = d.toNat :=
  (natOfText_textOfNat 26 d.toNat).trans (Nat.mod_eq_of_lt d.isLt)

theorem natOfText_codeText (c : CodeWord) : natOfText (codeText c) = c.toNat :=
  (natOfText_textOfNat 31 c.toNat).trans (Nat.mod_eq_of_lt c.isLt)

/-- A text decodes to the ENCODE whose text it is, and to nothing else. -/
theorem decodeText_eq_encode_iff {s : Text} {d : DataWord} : decodeText s = .ok (.encode d) ↔ dataText d = s :=
  ⟨blockTextRoundTrip.2 s (.encode d), fun h => h ▸ decodeText_dataText d⟩

/-- Settles O20: the texts of both ports are their numbers written out in binary, which `natOfText` reads back. -/
theorem portValueIsTheTextsNumber : Obligations.PortValueIsTheTextsNumber := by
  refine ⟨fun s d h => ?_, natOfText_codeText, by decide, by decide⟩
  rw [← decodeText_eq_encode_iff.mp h, natOfText_dataText]

/-! ### The wires of `data_in` (R27, R85) -/

theorem Wire.ofBit_beq_high_of_isBinary {w : Wire} (h : w.isBinary = true) : Wire.ofBit (w == .high) = w := by
  cases w with
  | low => rfl
  | high => rfl
  | unknown => cases h
  | floating => cases h

theorem encodePort_dataOfPort {p : DataPort} (h : ∀ b (hb : b < 26), p[b].isBinary = true) :
    encodePort (.encode (dataOfPort p)) = p := by
  apply Vector.ext
  intro b hb
  rw [encodePort_getElem _ hb, dataOfPort_getLsbD p hb, Wire.ofBit_beq_high_of_isBinary (h b hb)]

/-- Wires decode to the ENCODE whose wires they are, and to nothing else. -/
theorem decodePort_eq_ok_iff_encodePort {p : DataPort} {i : Instr} : decodePort p = .ok i ↔ encodePort i = p := by
  constructor
  · intro h
    obtain ⟨hbinary, rfl⟩ := decodePort_eq_ok_iff.mp h
    exact encodePort_dataOfPort hbinary
  · rintro rfl
    cases i with
    | encode d => exact decodePort_encodePort d

theorem decodePort_eq_error_iff {p : DataPort} :
    decodePort p = .error .wireNotBinary ↔ ∃ b, ∃ h : b < 26, p[b].isBinary = false := by
  cases hp : decodePort p with
  | ok i =>
    obtain ⟨hbinary, -⟩ := decodePort_eq_ok_iff.mp hp
    simpa using hbinary
  | error e =>
    cases e
    have hnot : ¬ ∀ b (h : b < 26), p[b].isBinary = true := fun h => by
      cases hp.symm.trans (decodePort_eq_ok_iff.mpr ⟨h, rfl⟩)
    simpa using hnot

/-- Settles O22: wires decode to `i` exactly when they are the wires of `i`, and are rejected otherwise. -/
theorem portRoundTrip : Obligations.PortRoundTrip :=
  ⟨fun _ => decodePort_eq_ok_iff_encodePort.mpr rfl, fun _ _ => decodePort_eq_ok_iff_encodePort.mp,
    fun _ => decodePort_eq_error_iff⟩

/-- Settles O24: each text and the port are what the encoders write for the word. -/
theorem writtenOutWordsDecode : Obligations.WrittenOutWordsDecode := by
  refine ⟨decodeText_eq_encode_iff.mpr ?_, decodeText_eq_encode_iff.mpr ?_, decodeText_eq_encode_iff.mpr ?_,
    decodeText_eq_encode_iff.mpr ?_, decodePort_eq_ok_iff_encodePort.mpr ?_⟩
  all_goals decide

end Sys2Proof

namespace Sys2Proof.Machine

/-- Settles O18: `d[k]` is bit `25 - k` of the word by definition, and position i is bit `31 - i` of what is
assembled. -/
theorem bitsOnTheirWires : Obligations.BitsOnTheirWires :=
  ⟨fun d _ _ => ⟨encodePort_getElem d (by omega), rfl⟩, fun d _ => ENC_codeBit d, rfl⟩

/-! ### Uses one after another (R31, R83) -/

/-- A use leaves the choice of the instance as it was. -/
theorem exec_encode_unit {d : DataWord} {s t : State} (h : exec (.encode d) s = .next t) : t.unit = s.unit := by
  cases (exec_encode d s).symm.trans h
  simp [State.unit, State.choice]

theorem exec_encode_samples {d : DataWord} {s t : State} (h : exec (.encode d) s = .next t) :
    t.samples = ENC d :: s.samples := by
  cases (exec_encode d s).symm.trans h
  rfl

/-- The instance a use has taken holds the word of that use, whatever was on it. -/
theorem exec_encode_get_unit {d : DataWord} {s t : State} (h : exec (.encode d) s = .next t) :
    t.ports.get s.unit = Port.hold d := by
  cases (exec_encode d s).symm.trans h
  exact Bank.get_set_same s.unit_lt _

/-- Settles O28: what a use reads and leaves on its instance are functions of its word, and every use of the two goes
to the same instance. -/
theorem usesAreIndependent : Obligations.UsesAreIndependent := by
  have hread : ∀ {d : DataWord} {s t : State}, exec (.encode d) s = .next t → t.samples.head? = some (ENC d) :=
    fun h => by rw [exec_encode_samples h, List.head?_cons]
  refine ⟨fun d s s' t t' h h' => ⟨(hread h).trans (hread h').symm, hread h⟩, fun d e s t u v he hd hd' => ?_⟩
  refine ⟨(hread hd).trans (hread hd').symm, ?_⟩
  rw [exec_encode_get_unit hd', ← exec_encode_unit he, exec_encode_get_unit hd]

/-! ### Reading a settled output (R26) -/

theorem runCommand_sample_shows {s : State} {j : Nat} {c : CodeWord} (hj : j < s.ports.size)
    (hv : (s.ports.get j).view = .shows c) : runCommand (.sample j) s = .next (s.record c) := by
  simp [runCommand, sampleUnit, hj, hv]

/-- Settles O36: a read of a settled output is `State.record`, which keeps every port, so the next read is the same. -/
theorem samplingChangesNothing : Obligations.SamplingChangesNothing := by
  intro s t j c hj hv h
  cases (runCommand_sample_shows hj hv).symm.trans h
  exact ⟨rfl, rfl, ⟨rfl, rfl, rfl, rfl, rfl, rfl, rfl⟩, rfl, (s.record c).record c, runCommand_sample_shows hj hv, rfl⟩

end Sys2Proof.Machine
end

section
/-! The statements of 30_encoding.md: the words of the opcode table and what they select (R36, R37, R38). -/

namespace Sys2Proof

/-! ### The texts of table words (log entry 15) -/

theorem tableText_of_input_word {nbits w : Nat} (hn : 26 ≤ nbits) (hw : w < 2 ^ 26) :
    tableText nbits w = textOfNat 26 w := by
  have hfits : w < 2 ^ nbits := hw.trans_le (Nat.pow_le_pow_right two_pos hn)
  rw [tableText, Nat.mod_eq_of_lt hfits, if_pos hw]

theorem tableText_of_wide_word {nbits w : Nat} (hw : 2 ^ 26 ≤ w) (hfits : w < 2 ^ nbits) :
    tableText nbits w = textOfNat nbits w := by
  rw [tableText, Nat.mod_eq_of_lt hfits, if_neg hw.not_gt]

/-! ### What they decode to (R36, R37) -/

theorem decodeText_textOfNat (v : Nat) : decodeText (textOfNat 26 v) = .ok (.encode (BitVec.ofNat 26 v)) := by
  rw [decodeText_of_wellFormed (textOfNat_length 26 v) fun _ => isBitChar_of_mem_textOfNat, dataOfText_textOfNat]

/-- The length is checked before the characters, so a wrong length is the error whatever they are (R70, R75). -/
theorem decodeText_of_length_ne {s : Text} (h : s.length ≠ 26) :
    decodeText s = .error (.invalidBlockLength s.length) :=
  if_neg h

theorem decodeTableWord_of_ok {nbits w : Nat} {i : Instr} (h : decodeText (tableText nbits w) = .ok i) :
    decodeTableWord nbits w = some i := by
  rw [decodeTableWord, h]

theorem decodeTableWord_of_error {nbits w : Nat} {e : ContractError} (h : decodeText (tableText nbits w) = .error e) :
    decodeTableWord nbits w = none := by
  rw [decodeTableWord, h]

/-- Settles O23: a word below `2 ^ 26` is written with 26 digits, which read back as itself; a wider one with `nbits`
digits, which are more than 26 since the word fits in them. -/
theorem everyTableWordSelectsEncode : Obligations.EveryTableWordSelectsEncode := by
  refine fun nbits w hn => ⟨fun hw => ?_, fun hw hfits => ?_⟩
  · apply decodeTableWord_of_ok
    rw [tableText_of_input_word hn hw, decodeText_textOfNat]
  · have hwide : 26 < nbits := (Nat.pow_lt_pow_iff_right one_lt_two).mp (hw.trans_lt hfits)
    have hlength : (tableText nbits w).length ≠ 26 := by
      rw [tableText_of_wide_word hw hfits, textOfNat_length]
      exact hwide.ne'
    exact decodeTableWord_of_error (decodeText_of_length_ne hlength)

end Sys2Proof
end

section
/-! The statements of 40_encoder.md about the code: what stands at each position (R41 to R44), the order of the parity
bits (R45), the closed form (R46), the parity invariant (R47) and the extraction (R48). -/

namespace Sys2Proof.Machine

/-! ### Parity groups (R42) -/

theorem mem_parityGroup {p i : Nat} : i ∈ parityGroup p ↔ (1 ≤ i ∧ i ≤ 31) ∧ i &&& p ≠ 0 := by
  rw [parityGroup, List.mem_filter, mem_positions, bne_iff_ne]

theorem parityGroup_nodup (p : Nat) : (parityGroup p).Nodup := List.Nodup.filter _ List.nodup_range'

theorem parityGroup_length : ∀ p ∈ parityPositions, (parityGroup p).length = 16 := by decide

theorem mem_parityGroup_self : ∀ p ∈ parityPositions, p ∈ parityGroup p := by decide

/-- A parity position has one bit set, so it lies in no group but its own (R45). -/
theorem parityPositions_and_eq_zero : ∀ p ∈ parityPositions, ∀ q ∈ parityPositions, p ≠ q → q &&& p = 0 := by decide

theorem not_mem_parityGroup_of_ne {p q : Nat} (hp : p ∈ parityPositions) (hq : q ∈ parityPositions) (h : p ≠ q) :
    q ∉ parityGroup p :=
  fun hmem => (mem_parityGroup.mp hmem).2 (parityPositions_and_eq_zero p hp q hq h)

theorem mem_dataPositions_of_mem_parityGroup {p i : Nat} (hp : p ∈ parityPositions) (hi : i ∈ parityGroup p)
    (h : i ≠ p) : i ∈ dataPositions := by
  refine mem_dataPositions.mpr ⟨(mem_parityGroup.mp hi).1, Bool.eq_false_iff.mpr fun hpar => ?_⟩
  exact not_mem_parityGroup_of_ne hp (isParityPosition_iff.mp hpar) h.symm hi

/-- Settles O4: the groups are filters of the 31 positions, and their sizes and rows are evaluated. -/
theorem parityGroupsOfTheTable : Obligations.ParityGroupsOfTheTable := by
  refine ⟨fun p _ i => by rw [mem_parityGroup, and_assoc], fun p hp => ?_, by decide, by decide, by decide, by decide,
    by decide⟩
  exact ⟨parityGroup_length p hp, mem_parityGroup_self p hp, fun i hi h => mem_dataPositions_of_mem_parityGroup hp hi h⟩

/-- The numbers of the data bits that stand at the data positions of p's group (the table of R44). -/
def parityRow (p : Nat) : List Nat := ((parityGroup p).filter (· != p)).map idx

/-! ### The bits of a Codeword (R41, R43) -/

theorem pos_mem_dataPositions {k : Nat} (h : k < 26) : pos k ∈ dataPositions :=
  List.mem_of_getElem? (dataPositions_getElem? k h)

theorem pos_bounds {k : Nat} (h : k < 26) : 1 ≤ pos k ∧ pos k ≤ 31 :=
  (mem_dataPositions.mp (pos_mem_dataPositions h)).1

theorem codeBit_ENC_pos (d : DataWord) {k : Nat} (h : k < 26) : codeBit (ENC d) (pos k) = dataBit d k := by
  obtain ⟨h₁, h₂⟩ := pos_bounds h
  rw [ENC_codeBit d h₁ h₂, codewordBits_eq]
  interval_cases k <;> rfl

theorem codeBit_ENC_parity (d : DataWord) {p : Nat} (hp : p ∈ parityPositions) :
    codeBit (ENC d) p = xorOf d (parityRow p) := by
  obtain ⟨h₁, h₂⟩ := (mem_parityGroup.mp (mem_parityGroup_self p hp)).1
  rw [ENC_codeBit d h₁ h₂, codewordBits_eq]
  rcases mem_parityPositions.mp hp with rfl | rfl | rfl | rfl | rfl <;> rfl

/-- A 31-bit word is known by what stands at the parity positions and at the positions of the data bits. -/
theorem code_ext_pos {a b : CodeWord} (hparity : ∀ p ∈ parityPositions, codeBit a p = codeBit b p)
    (hdata : ∀ k < 26, codeBit a (pos k) = codeBit b (pos k)) : a = b := by
  refine code_ext fun i h₁ h₂ => ?_
  by_cases hi : i ∈ parityPositions
  · exact hparity i hi
  · obtain ⟨k, hk, rfl⟩ := exists_pos h₁ h₂ hi
    exact hdata k hk

/-- Settles O3: position `pos k` is wire `31 - pos k`, and `d[k]` is `data_in[25 - k]`. -/
theorem placementPutsEachDataBit : Obligations.PlacementPutsEachDataBit :=
  fun d _ hk => ⟨codeBit_ENC_pos d hk, codeBit_ENC_pos d hk⟩

/-- The other bits of p's group are the data bits of its row. -/
theorem map_codeBit_ENC_group (d : DataWord) {p : Nat} (hp : p ∈ parityPositions) :
    ((parityGroup p).filter (· != p)).map (codeBit (ENC d)) = (parityRow p).map (dataBit d) := by
  rw [parityRow, List.map_map]
  refine List.map_congr_left fun i hi => ?_
  obtain ⟨hi, hne⟩ := List.mem_filter.mp hi
  have hdata : i ∈ dataPositions := mem_dataPositions_of_mem_parityGroup hp hi (bne_iff_ne.mp hne)
  rw [Function.comp_apply, ← codeBit_ENC_pos d (idx_lt hdata), pos_idx hdata]

theorem codeBit_ENC_parity_eq_group (d : DataWord) {p : Nat} (hp : p ∈ parityPositions) :
    codeBit (ENC d) p = xorBits (((parityGroup p).filter (· != p)).map (codeBit (ENC d))) := by
  rw [map_codeBit_ENC_group d hp, codeBit_ENC_parity d hp, xorOf]

/-- A group is its parity position and the others. -/
theorem groupXor_eq (c : CodeWord) {p : Nat} (hp : p ∈ parityPositions) :
    groupXor c p = xor (codeBit c p) (xorBits (((parityGroup p).filter (· != p)).map (codeBit c))) := by
  have hperm : (parityGroup p).Perm (p :: (parityGroup p).filter (· != p)) := by
    rw [← (parityGroup_nodup p).erase_eq_filter]
    exact List.perm_cons_erase (mem_parityGroup_self p hp)
  rw [groupXor, xorBits_perm (hperm.map _), List.map_cons, xorBits_cons]

theorem groupXor_ENC (d : DataWord) {p : Nat} (hp : p ∈ parityPositions) : groupXor (ENC d) p = false := by
  rw [groupXor_eq _ hp, ← codeBit_ENC_parity_eq_group d hp, Bool.xor_self]

/-- Settles O5: the others of a group are data positions, where the bits of the row stand that make up the parity bit. -/
theorem parityBitIsXorOfItsGroup : Obligations.ParityBitIsXorOfItsGroup :=
  fun d _ hp => ⟨codeBit_ENC_parity_eq_group d hp, groupXor_ENC d hp,
    fun _ hi h => mem_dataPositions_of_mem_parityGroup hp hi h⟩

/-! ### The masks (R44) -/

theorem parityInputBits_eq (p : Nat) : parityInputBits p = (parityRow p).map (25 - ·) := by
  rw [parityInputBits, parityRow, List.map_map]; rfl

theorem xorBits_parityInputBits (d : DataWord) (p : Nat) :
    xorBits ((parityInputBits p).map fun b => d.getLsbD b) = xorOf d (parityRow p) := by
  rw [parityInputBits_eq, List.map_map]; rfl

/-- The bits set in a mask are the table's row, which lists them from the highest down. -/
theorem filter_parityMask : ∀ p ∈ parityPositions,
    (List.range 26).filter (fun b => (parityMask p).getLsbD b) = (parityInputBits p).reverse := by decide

theorem parityInputBits_length : ∀ p ∈ parityPositions, (parityInputBits p).length = 15 := by decide

theorem popcount_parityMask {p : Nat} (hp : p ∈ parityPositions) : popcount (parityMask p) = 15 := by
  rw [popcount, List.countP_eq_length_filter, filter_parityMask p hp, List.length_reverse, parityInputBits_length p hp]

theorem parityMask_getLsbD_iff {p : Nat} (hp : p ∈ parityPositions) (b : Nat) :
    (parityMask p).getLsbD b = true ↔ b ∈ parityInputBits p := by
  rw [← List.mem_reverse, ← filter_parityMask p hp, List.mem_filter, List.mem_range]
  exact ⟨fun h => ⟨BitVec.lt_of_getLsbD h, h⟩, And.right⟩

/-- `par` under a mask is the exclusive-or of the bits the mask selects. -/
theorem par_and_parityMask (d : DataWord) {p : Nat} (hp : p ∈ parityPositions) :
    par (d &&& parityMask p) = xorBits ((parityInputBits p).map fun b => d.getLsbD b) := by
  rw [par, popcount, ← xorBits_eq_countP, ← xorBits_perm ((parityInputBits p).reverse_perm.map _),
    ← filter_parityMask p hp, xorBits_filter]
  simp only [BitVec.getLsbD_and, Bool.and_comm]

theorem codeBit_ENC_parity_eq_par (d : DataWord) {p : Nat} (hp : p ∈ parityPositions) :
    codeBit (ENC d) p = par (d &&& parityMask p) := by
  rw [codeBit_ENC_parity d hp, par_and_parityMask d hp, xorBits_parityInputBits]

/-- Settles O6: the parity bit is the exclusive-or of its row, and the row is what the mask selects. -/
theorem parityEquationsWithMasks : Obligations.ParityEquationsWithMasks := by
  refine ⟨fun d p hp => ?_, by decide, by decide, by decide, by decide, by decide⟩
  have hpar := codeBit_ENC_parity_eq_par d hp
  exact ⟨hpar, hpar, popcount_parityMask hp, hpar.trans (par_and_parityMask d hp), parityInputBits_length p hp,
    parityMask_getLsbD_iff hp⟩

/-! ### The order of the parity bits (R45) -/

theorem bitAt_setBitAt_ne {i q : Nat} (hi : 1 ≤ i) (hq : 1 ≤ q) (h : i ≠ q) (c : List Bool) (b : Bool) :
    bitAt (setBitAt c q b) i = bitAt c i := by
  rw [bitAt, bitAt, setBitAt, List.getD_eq_getElem?_getD, List.getElem?_set_ne (by omega), List.getD_eq_getElem?_getD]

theorem parityPositions_pos {p : Nat} (hp : p ∈ parityPositions) : 1 ≤ p :=
  (mem_parityGroup.mp (mem_parityGroup_self p hp)).1.1

/-- A parity bit does not depend on what stands at the parity positions. -/
theorem parityBit_setBitAt {p q : Nat} (hp : p ∈ parityPositions) (hq : q ∈ parityPositions) (c : List Bool) (b : Bool) :
    parityBit (setBitAt c q b) p = parityBit c p := by
  refine congrArg xorBits (List.map_congr_left fun i hi => ?_)
  obtain ⟨hi, hne⟩ := List.mem_filter.mp hi
  have hiq : i ≠ q := by
    rintro rfl
    exact not_mem_parityGroup_of_ne hp hq (bne_iff_ne.mp hne).symm hi
  exact bitAt_setBitAt_ne (mem_parityGroup.mp hi).1.1 (parityPositions_pos hq) hiq c b

/-- Two steps of the parity loop can be exchanged. -/
theorem setParityBit_comm {p q : Nat} (hp : p ∈ parityPositions) (hq : q ∈ parityPositions) (c : List Bool) :
    setBitAt (setBitAt c p (parityBit c p)) q (parityBit (setBitAt c p (parityBit c p)) q) =
      setBitAt (setBitAt c q (parityBit c q)) p (parityBit (setBitAt c q (parityBit c q)) p) := by
  rw [parityBit_setBitAt hq hp, parityBit_setBitAt hp hq]
  by_cases h : p = q
  · rw [h]
  · have h₁ := parityPositions_pos hp
    have h₂ := parityPositions_pos hq
    exact List.set_comm _ _ (by omega)

theorem fillParity_perm {ps : List Nat} (h : ps.Perm parityPositions) (c : List Bool) :
    fillParity ps c = fillParity parityPositions c :=
  h.foldl_eq' (fun _ hp _ hq z => setParityBit_comm (h.subset hp) (h.subset hq) z) c

/-- Settles O7: no step of the parity loop reads what another one writes, so any two can be exchanged. -/
theorem parityOrderDoesNotMatter : Obligations.ParityOrderDoesNotMatter := by
  refine ⟨fun p hp q hq h => ?_, fun d ps h => ?_⟩
  · exact ⟨parityPositions_and_eq_zero p hp q hq h, not_mem_parityGroup_of_ne hp hq h⟩
  · rw [fillParity_perm h, ENC, codewordBits]

/-! ### The closed form (R46) -/

theorem codeBit_closedForm_parity (d : DataWord) {p : Nat} (hp : p ∈ parityPositions) :
    codeBit (closedForm d) p = par (d &&& parityMask p) := by
  unfold codeBit closedForm maskParity
  simp only [BitVec.getLsbD_cast, BitVec.getLsbD_append, BitVec.getLsbD_ofBool]
  rcases mem_parityPositions.mp hp with rfl | rfl | rfl | rfl | rfl <;> simp

theorem codeBit_closedForm_pos (d : DataWord) {k : Nat} (h : k < 26) : codeBit (closedForm d) (pos k) = dataBit d k := by
  unfold codeBit closedForm
  simp only [BitVec.getLsbD_cast, BitVec.getLsbD_append, BitVec.getLsbD_extractLsb']
  interval_cases k <;> simp [pos, dataBit]

theorem ENC_eq_closedForm (d : DataWord) : ENC d = closedForm d :=
  code_ext_pos (fun _ hp => (codeBit_ENC_parity_eq_par d hp).trans (codeBit_closedForm_parity d hp).symm)
    fun _ hk => (codeBit_ENC_pos d hk).trans (codeBit_closedForm_pos d hk).symm

/-- The last 15 positions are data positions, in the order of the input. -/
theorem ENC_getLsbD_low (d : DataWord) {b : Nat} (h : b < 15) : (ENC d).getLsbD b = d.getLsbD b := by
  have hpos : pos (25 - b) = 31 - b := by
    rw [pos, if_neg (by omega), if_neg (by omega), if_neg (by omega)]; omega
  have hbit := codeBit_ENC_pos d (k := 25 - b) (by omega)
  rwa [hpos, codeBit, dataBit, show 31 - (31 - b) = b by omega, show 25 - (25 - b) = b by omega] at hbit

/-- Settles O8: both sides agree at the parity positions, by the mask equations, and at the data positions. -/
theorem codewordInClosedForm : Obligations.CodewordInClosedForm := by
  refine fun d => ⟨ENC_eq_closedForm d, ?_, fun i => ENC_codeBit d⟩
  apply BitVec.eq_of_getLsbD_eq
  intro b hb
  rw [BitVec.getLsbD_extractLsb', BitVec.getLsbD_extractLsb', Nat.zero_add, ENC_getLsbD_low d hb]

/-- Settles O9, each value by evaluating the pseudocode. -/
theorem cornerCasesOfEncode : Obligations.CornerCasesOfEncode := by
  unfold Obligations.CornerCasesOfEncode
  decide +kernel

/-! ### The parity invariant (R47) -/

theorem and_two_pow_bne_zero (i b : Nat) : (i &&& 2 ^ b != 0) = i.testBit b := by
  rw [Nat.and_two_pow]
  cases i.testBit b <;> simp

/-- Bit b of the XOR of the positions counts the set positions whose number has bit b: the group of `2 ^ b`. -/
theorem positionXor_testBit (c : CodeWord) (b : Nat) : (positionXor c).testBit b = groupXor c (2 ^ b) := by
  rw [positionXor, testBit_foldr_xor, xorBits_filter, groupXor, parityGroup, xorBits_filter]
  simp only [and_two_pow_bne_zero, Bool.and_comm]

theorem foldr_xor_lt_two_pow {n : Nat} {l : List Nat} (h : ∀ i ∈ l, i < 2 ^ n) : l.foldr (· ^^^ ·) 0 < 2 ^ n := by
  induction l with
  | nil => exact Nat.two_pow_pos n
  | cons i l ih =>
    obtain ⟨hi, hl⟩ := List.forall_mem_cons.mp h
    exact Nat.xor_lt_two_pow hi (ih hl)

/-- The positions are numbers of five bits. -/
theorem positionXor_lt (c : CodeWord) : positionXor c < 2 ^ 5 :=
  foldr_xor_lt_two_pow fun _ hi => Nat.lt_succ_of_le (mem_positions.mp (List.mem_of_mem_filter hi)).2

theorem parityPositions_eq_map : parityPositions = (List.range 5).map (2 ^ ·) := rfl

theorem mem_parityPositions_iff_two_pow {p : Nat} : p ∈ parityPositions ↔ ∃ b < 5, 2 ^ b = p := by
  simp only [parityPositions_eq_map, List.mem_map, List.mem_range]

theorem isCodeword_iff_positionXor (c : CodeWord) : IsCodeword c ↔ positionXor c = 0 := by
  constructor
  · intro h
    refine Nat.eq_of_testBit_eq fun b => ?_
    rw [Nat.zero_testBit]
    by_cases hb : b < 5
    · rw [positionXor_testBit]
      exact h _ (mem_parityPositions_iff_two_pow.mpr ⟨b, hb, rfl⟩)
    · exact Nat.testBit_lt_two_pow ((positionXor_lt c).trans_le (Nat.pow_le_pow_right two_pos (by omega)))
  · intro h p hp
    obtain ⟨b, -, rfl⟩ := mem_parityPositions_iff_two_pow.mp hp
    rw [← positionXor_testBit, h, Nat.zero_testBit]

/-- Settles O10: the groups' XORs are the bits of the XOR of the positions. -/
theorem everyCodewordMeetsParity : Obligations.EveryCodewordMeetsParity :=
  ⟨fun d _ hp => groupXor_ENC d hp, isCodeword_iff_positionXor⟩

/-! ### The extraction (R48) -/

theorem dataBit_extractData (c : CodeWord) {k : Nat} (h : k < 26) : dataBit (extractData c) k = codeBit c (pos k) := by
  unfold dataBit extractData codeBit
  simp only [BitVec.getLsbD_cast, BitVec.getLsbD_append, BitVec.getLsbD_extractLsb']
  interval_cases k <;> simp [pos]

theorem extractData_ENC (d : DataWord) : extractData (ENC d) = d :=
  data_ext fun _ hk => (dataBit_extractData _ hk).trans (codeBit_ENC_pos d hk)

theorem ENC_injective : Function.Injective ENC := Function.LeftInverse.injective extractData_ENC

/-- Settles O12: the extraction reads the data positions and so is a left inverse of ENC. -/
theorem extractionGivesBackTheData : Obligations.ExtractionGivesBackTheData :=
  ⟨fun d => ⟨extractData_ENC d, fun _ hk => (codeBit_ENC_pos d hk).symm⟩, fun _ _ h => ENC_injective h⟩

end Sys2Proof.Machine
end

section
/-! The statements of 40_encoder.md about trees, rows and distance: the gate trees (R49), linearity (R50), the generator
rows (R54, R55) and the least distance (R51). -/

namespace Sys2Proof.Machine

/-! ### Gate trees (R49) -/

theorem map_parityInput (d : DataWord) {p : Nat} (hp : p ∈ parityPositions) :
    (List.range 15).map (parityInput d p) = (parityInputBits p).map fun b => d.getLsbD b := by
  rw [← parityInputBits_length p hp]
  apply List.ext_getElem <;> simp +contextual [parityInput]

/-- Settles O13: a tree computes the exclusive-or of its inputs in any order, and these are the bits of p's row. -/
theorem anyParityTreeComputesTheBit : Obligations.AnyParityTreeComputesTheBit := by
  refine ⟨fun d p hp t ht => ?_, by decide⟩
  rw [XorTree.eval_eq, xorBits_perm (ht.map _), map_parityInput d hp, xorBits_parityInputBits, codeBit_ENC_parity d hp]

/-! ### Linearity (R50) -/

theorem ENC_xor (a b : DataWord) : ENC (a ^^^ b) = ENC a ^^^ ENC b := by
  apply code_ext_pos
  · intro p hp
    rw [codeBit_xor, codeBit_ENC_parity _ hp, codeBit_ENC_parity _ hp, codeBit_ENC_parity _ hp, xorOf_xor]
  · intro k hk
    rw [codeBit_xor, codeBit_ENC_pos _ hk, codeBit_ENC_pos _ hk, codeBit_ENC_pos _ hk, dataBit_xor]

theorem ENC_zero : ENC 0#26 = 0#31 := cornerCasesOfEncode.1

theorem ENC_foldr_xor (f : Nat → DataWord) (ks : List Nat) :
    ENC (ks.foldr (fun k acc => f k ^^^ acc) 0#26) = ks.foldr (fun k acc => ENC (f k) ^^^ acc) 0#31 := by
  induction ks with
  | nil => exact ENC_zero
  | cons k ks ih => rw [List.foldr_cons, ENC_xor, ih, List.foldr_cons]

/-! ### Words with one bit set (R54) -/

theorem dataBit_singleBit {k j : Nat} (hk : k < 26) (hj : j < 26) : dataBit (singleBit k) j = (j == k) := by
  rw [dataBit, singleBit, BitVec.getLsbD_shiftLeft, BitVec.getLsbD_one, Bool.eq_iff_iff]
  simp only [Bool.and_eq_true, Bool.not_eq_true', decide_eq_true_eq, decide_eq_false_iff_not, beq_iff_eq]
  omega

/-- A list without repetition has at most one entry equal to k. -/
theorem xorBits_map_beq {l : List Nat} (hl : l.Nodup) (k : Nat) : xorBits (l.map (· == k)) = decide (k ∈ l) := by
  rw [xorBits_eq_countP]
  change (l.count k % 2 == 1) = _
  rw [hl.count]
  split <;> simp [*]

theorem dataBit_foldr_xor (f : Nat → DataWord) (ks : List Nat) (j : Nat) :
    dataBit (ks.foldr (fun k acc => f k ^^^ acc) 0#26) j = xorBits (ks.map fun k => dataBit (f k) j) := by
  induction ks with
  | nil => simp [dataBit]
  | cons k ks ih => rw [List.foldr_cons, dataBit_xor, ih, List.map_cons, xorBits_cons]

/-- A word is the exclusive-or of the single bits it has set. -/
theorem foldr_singleBit (d : DataWord) :
    ((List.range 26).filter (dataBit d)).foldr (fun k acc => singleBit k ^^^ acc) 0#26 = d := by
  refine data_ext fun j hj => ?_
  have hbits : ((List.range 26).filter (dataBit d)).map (fun k => dataBit (singleBit k) j) =
      ((List.range 26).filter (dataBit d)).map (· == j) := by
    refine List.map_congr_left fun k hk => ?_
    rw [dataBit_singleBit (List.mem_range.mp (List.mem_of_mem_filter hk)) hj, BEq.comm]
  rw [dataBit_foldr_xor, hbits, xorBits_map_beq (List.nodup_range.filter _)]
  simp [hj]

/-- The generator table of R54 against the pseudocode, row by row. -/
theorem ENC_singleBit : ∀ k < 26, ENC (singleBit k) = generatorRow k := by decide +kernel

theorem popcount_singleBit : ∀ k < 26, popcount (singleBit k) = 1 := by decide

theorem popcount_generatorRow : ∀ k < 26, popcount (generatorRow k) = 1 + natPopcount (pos k) := by decide

/-- Settles O15, each row by evaluating the pseudocode. -/
theorem generatorRowsOfSingleBits : Obligations.GeneratorRowsOfSingleBits := by
  refine fun k hk => ⟨?_, popcount_singleBit k hk, ENC_singleBit k hk, popcount_generatorRow k hk⟩
  rw [dataBit_singleBit hk hk, beq_self_eq_true]

theorem ENC_eq_xorOfRows (d : DataWord) : ENC d = xorOfRows d := by
  conv_lhs => rw [← foldr_singleBit d, ENC_foldr_xor]
  refine List.foldr_ext _ _ _ fun k hk acc => ?_
  rw [ENC_singleBit k (List.mem_range.mp (List.mem_of_mem_filter hk))]

/-- Settles O14: ENC is linear, so it takes the single bits of a word to their rows. -/
theorem encodeIsLinear : Obligations.EncodeIsLinear := ⟨ENC_xor, ENC_zero, ENC_eq_xorOfRows⟩

/-! ### Changing one data bit (R55) -/

theorem xor_singleBit_ENC (d : DataWord) {k : Nat} (hk : k < 26) :
    ENC (d ^^^ singleBit k) ^^^ ENC d = generatorRow k := by
  rw [ENC_xor, BitVec.xor_comm, ← BitVec.xor_assoc, BitVec.xor_self, BitVec.zero_xor, ENC_singleBit k hk]

theorem pos_injective {j k : Nat} (hj : j < 26) (hk : k < 26) (h : pos j = pos k) : j = k := by
  rw [← idx_pos hj, h, idx_pos hk]

theorem pos_ne_parityPosition {k p : Nat} (hk : k < 26) (hp : p ∈ parityPositions) : pos k ≠ p := by
  rintro rfl
  have := (mem_dataPositions.mp (pos_mem_dataPositions hk)).2
  rw [isParityPosition_iff.mpr hp] at this
  cases this

theorem mem_parityRow {k p : Nat} (hk : k < 26) (hp : p ∈ parityPositions) : k ∈ parityRow p ↔ pos k ∈ parityGroup p := by
  rw [parityRow, List.mem_map]
  constructor
  · rintro ⟨i, hi, rfl⟩
    obtain ⟨hi, hne⟩ := List.mem_filter.mp hi
    rwa [pos_idx (mem_dataPositions_of_mem_parityGroup hp hi (bne_iff_ne.mp hne))]
  · exact fun h => ⟨pos k, List.mem_filter.mpr ⟨h, bne_iff_ne.mpr (pos_ne_parityPosition hk hp)⟩, idx_pos hk⟩

theorem parityRow_nodup : ∀ p ∈ parityPositions, (parityRow p).Nodup := by decide

theorem parityRow_lt : ∀ p ∈ parityPositions, ∀ k ∈ parityRow p, k < 26 := by decide

theorem xorOf_singleBit {k p : Nat} (hk : k < 26) (hp : p ∈ parityPositions) :
    xorOf (singleBit k) (parityRow p) = decide (pos k ∈ parityGroup p) := by
  rw [xorOf, List.map_congr_left fun j hj => dataBit_singleBit hk (parityRow_lt p hp j hj),
    xorBits_map_beq (parityRow_nodup p hp), decide_eq_decide, mem_parityRow hk hp]

/-- Where a generator row has its ones: at the position of the data bit, and at the parity bits of its groups. -/
theorem codeBit_generatorRow {k i : Nat} (hk : k < 26) (h₁ : 1 ≤ i) (h₂ : i ≤ 31) :
    codeBit (generatorRow k) i = true ↔ i = pos k ∨ (i ∈ parityPositions ∧ pos k ∈ parityGroup i) := by
  rw [← ENC_singleBit k hk]
  by_cases hi : i ∈ parityPositions
  · have hne : i ≠ pos k := (pos_ne_parityPosition hk hi).symm
    rw [codeBit_ENC_parity _ hi, xorOf_singleBit hk hi, decide_eq_true_iff]
    simp [hne, hi]
  · obtain ⟨j, hj, rfl⟩ := exists_pos h₁ h₂ hi
    rw [codeBit_ENC_pos _ hj, dataBit_singleBit hk hj, beq_iff_eq]
    simp only [hi, false_and, or_false]
    exact ⟨congrArg pos, pos_injective hj hk⟩

/-- A position lies in as many groups as its number has bits set. -/
theorem length_filter_parityGroup {i : Nat} (h₁ : 1 ≤ i) (h₂ : i ≤ 31) :
    (parityPositions.filter fun p => i ∈ parityGroup p).length = natPopcount i := by
  rw [← List.countP_eq_length_filter, parityPositions_eq_map, List.countP_map, natPopcount]
  refine congrArg (List.countP · (List.range 5)) (funext fun b => ?_)
  rw [Function.comp_apply, ← and_two_pow_bne_zero, Bool.eq_iff_iff, decide_eq_true_iff, mem_parityGroup, bne_iff_ne]
  exact and_iff_right ⟨h₁, h₂⟩

/-- Settles O16: by linearity the two Codewords differ by row k, whose ones are the positions named. -/
theorem oneDataBitChangesItsRow : Obligations.OneDataBitChangesItsRow := by
  intro d k hk
  obtain ⟨h₁, h₂⟩ := pos_bounds hk
  refine ⟨xor_singleBit_ENC d hk, fun i h₁ h₂ => ?_, length_filter_parityGroup h₁ h₂⟩
  rw [← codeBit_generatorRow hk h₁ h₂, ← xor_singleBit_ENC d hk, codeBit_xor, Bool.xor_iff_ne]

/-! ### The least distance (R51) -/

theorem length_setPositions (c : CodeWord) : (positions.filter (codeBit c)).length = popcount c := by
  rw [popcount_eq_countP_positions, List.countP_eq_length_filter]

/-- A word that meets the parity invariant and is not 0 has three bits set: one position is not 0, and two distinct
positions do not cancel. -/
theorem three_le_popcount {c : CodeWord} (h : IsCodeword c) (hc : c ≠ 0#31) : 3 ≤ popcount c := by
  have hxor : positionXor c = 0 := (isCodeword_iff_positionXor c).mp h
  have hnodup : (positions.filter (codeBit c)).Nodup := List.Nodup.filter _ List.nodup_range'
  have hmem : ∀ i ∈ positions.filter (codeBit c), 1 ≤ i :=
    fun i hi => (mem_positions.mp (List.mem_of_mem_filter hi)).1
  rw [positionXor] at hxor
  rw [← length_setPositions]
  match hl : positions.filter (codeBit c) with
  | [] =>
    refine absurd (code_ext fun i h₁ h₂ => ?_) hc
    have := List.filter_eq_nil_iff.mp hl i (mem_positions.mpr ⟨h₁, h₂⟩)
    simpa [codeBit] using this
  | [i] =>
    rw [hl] at hxor hmem
    have hzero : i = 0 := by simpa using hxor
    have hpos : 1 ≤ i := hmem i (by simp)
    omega
  | [i, j] =>
    rw [hl] at hxor hnodup
    have heq : i = j := by simpa using hxor
    have hne : i ≠ j := by simpa using hnodup
    exact absurd heq hne
  | _ :: _ :: _ :: _ => simp

/-- Settles O17: the difference of two Codewords is the Codeword of the difference, which is not 0. -/
theorem distinctCodewordsDifferInThree : Obligations.DistinctCodewordsDifferInThree := by
  intro a b hab
  rw [← ENC_xor]
  refine three_le_popcount (fun p hp => groupXor_ENC _ hp) fun h => hab ?_
  exact BitVec.xor_eq_zero_iff.mp (ENC_injective (h.trans ENC_zero.symm))

end Sys2Proof.Machine
end

section
/-! The statements of 40_encoder.md about the machine: a use of the block (R40, R64), and a table word placed where the
adapter fetches (log entry 15). -/

namespace Sys2Proof.Machine

/-- Settles O26: a use leaves its word on the chosen port, settled, and its Codeword as the newest sample. -/
theorem encodeCompletesWithItsCodeword : Obligations.EncodeCompletesWithItsCodeword := by
  intro d s
  have hport := exec_encode_get_unit (exec_encode d s)
  refine ⟨_, exec_encode d s, s.unit_lt, ?_, ?_, ?_⟩
  · rw [hport, Port.hold_dataIn]
  · rw [hport, Port.view_hold, ENC_eq_closedForm]
  · rw [exec_encode_samples (exec_encode d s), ENC_eq_closedForm]

/-- The adapter fetches the first block when it is open and decodes and the schedule chooses it (R65). -/
theorem nextUse_of_first_open {s : State} {slot : Slot} {rest : List Slot} {i : Instr} (hs : s.slots = slot :: rest)
    (hr : slot.result = none) (hd : decodeText slot.text = .ok i) (hc : s.choice.block = 0) :
    nextUse s = .use 0 i := by
  simp [nextUse, hs, scanSlots, hr, hd, hc]

theorem withFetchWord_unit (s : State) (nbits w : Nat) : (s.withFetchWord nbits w).unit = s.unit := rfl

theorem nextUse_withFetchWord (s : State) {nbits w : Nat} (hn : 26 ≤ nbits) (hw : w < 2 ^ 26) :
    nextUse (s.withFetchWord nbits w) = .use 0 (.encode (BitVec.ofNat 26 w)) := by
  refine nextUse_of_first_open (withFetchWord_slots s nbits w) rfl ?_ rfl
  rw [tableText_of_input_word hn hw, decodeText_textOfNat]

/-- Settles O31: the placed word is the block fetched, so the step is its use. -/
theorem fetchedTableWordRuns : Obligations.FetchedTableWordRuns :=
  fun s nbits w hn hw =>
    ⟨_, step_use (withFetchWord_phase s nbits w) (nextUse_withFetchWord s hn hw), rfl, rfl, rfl⟩

end Sys2Proof.Machine
end

section
/-! SUPPORT. What a step is in each phase, and what reading, writing and taking a command are (R56, R57, R64), one
equation per case. -/

namespace Sys2Proof.Machine

/-! ### The running phases -/

theorem step_reading {s : State} {src : Source} (hp : s.phase = .reading src) : step s = .next (readInput src s) := by
  rw [step_eq, hp]

theorem step_chunking {s : State} {bits : Text} (hp : s.phase = .chunking bits) : step s = .next (chunkInput bits s) := by
  rw [step_eq, hp]

theorem step_encoding {s : State} (hp : s.phase = .encoding) : step s = adaptNext s := by
  rw [step_eq, hp]

theorem step_writing {s : State} {rest : List CodeWord} (hp : s.phase = .writing rest) :
    step s = .next (writeOutput rest s) := by
  rw [step_eq, hp]

theorem readInput_some {src : Source} {t : Text} (h : src.contents = some t) (s : State) :
    readInput src s = { s with phase := .chunking (filterBits t) } := by
  rw [readInput, h]

theorem readInput_none {src : Source} (h : src.contents = none) (s : State) :
    readInput src s = takeError (.inputError .unreadable) s := by
  rw [readInput, h]

/-! ### Writing a line -/

theorem writeOutput_fails {s : State} (h : s.sink.write = none) (c : CodeWord) (cs : List CodeWord) :
    writeOutput (c :: cs) s = takeError .outputError s := by
  rw [writeOutput, h]

/-- The state after the line of c is written, with the lines of cs to come and the sink as the write leaves it. -/
def State.afterLine (s : State) (sink : Sink) (c : CodeWord) (cs : List CodeWord) : State :=
  { s with phase := .writing cs, sink := sink, output := s.output ++ [codeText c] }

theorem writeOutput_writes {s : State} {sink : Sink} (h : s.sink.write = some sink) (c : CodeWord) (cs : List CodeWord) :
    writeOutput (c :: cs) s = s.afterLine sink c cs := by
  rw [writeOutput, h]; rfl

/-! ### Taking a command -/

theorem nextCommand_nil {s : State} (h : s.commands = []) : nextCommand s = .next s := by
  rw [nextCommand, h]

theorem nextCommand_cons {s : State} {c : Command} {rest : List Command} (h : s.commands = c :: rest) :
    nextCommand s = runCommand c { s with commands := rest } := by
  rw [nextCommand, h]

theorem step_command {s : State} {c : Command} {rest : List Command} (hr : s.Resting) (hc : s.commands = c :: rest) :
    step s = runCommand c { s with commands := rest } := by
  rw [step_resting hr, nextCommand_cons hc]

/-! ### Running two steps -/

theorem run_two {s t u : State} (h : step s = .next t) (h' : step t = .next u) : Sys2Proof.core.run 2 s = .next u := by
  rw [run_succ h, run_one h']

end Sys2Proof.Machine
end

section
/-! The statement of 41_host_stream.md about the invariant (R61, R64, R65): what it says in each phase, and that commands,
errors and the stages of a running invocation keep it. -/

namespace Sys2Proof.Machine

/-! ### What the invariant says in each phase -/

/-- The invariant, with its two clauses about the instances as one. -/
theorem State.inv_iff {s : State} :
    s.Inv ↔ s.ports.All Port.Ok ∧ (∀ slot ∈ s.slots, slot.Ok) ∧ s.PhaseOk :=
  and_assoc.symm

theorem State.phaseOk_reading {s : State} {src : Source} (hp : s.phase = .reading src) :
    s.PhaseOk ↔ s.output = [] := by
  rw [State.PhaseOk, hp]

theorem State.phaseOk_chunking {s : State} {bits : Text} (hp : s.phase = .chunking bits) :
    s.PhaseOk ↔ s.output = [] ∧ ∀ c ∈ bits, isBitChar c := by
  rw [State.PhaseOk, hp]

theorem State.phaseOk_encoding {s : State} (hp : s.phase = .encoding) :
    s.PhaseOk ↔ s.output = [] ∧ ∀ m, s.metadata = some m → m.Fits s.slots.length := by
  rw [State.PhaseOk, hp]

theorem State.phaseOk_writing {s : State} {rest : List CodeWord} (hp : s.phase = .writing rest) :
    s.PhaseOk ↔ s.AllEncoded ∧ s.Ordered rest ∧ ∀ m, s.metadata = some m → m.Fits s.slots.length := by
  rw [State.PhaseOk, hp]

theorem State.phaseOk_ended_ok {s : State} {cs : List CodeWord} {md : Option Metadata}
    (hp : s.phase = .ended (.ok cs md)) :
    s.PhaseOk ↔ (∀ c ∈ cs, IsCodeword c) ∧ s.output = cs.map codeText ∧ ∀ m, md = some m → m.Fits cs.length := by
  rw [State.PhaseOk, hp]

theorem State.phaseOk_ended_err {s : State} {e : HostError} (hp : s.phase = .ended (.err e)) :
    s.PhaseOk ↔ s.slots = [] ∧ s.metadata = none := by
  rw [State.PhaseOk, hp]

/-! ### Blocks and their Codewords -/

/-- A block that is not encoded yet has nothing to be right about. -/
theorem Slot.ok_open (t : Text) : Slot.Ok ⟨t, none⟩ := fun _ h => by cases h

theorem slots_ok_open (texts : List Text) : ∀ slot ∈ texts.map fun t => (⟨t, none⟩ : Slot), slot.Ok := by
  intro slot h
  obtain ⟨t, -, rfl⟩ := List.mem_map.mp h
  exact Slot.ok_open t

/-- The Codewords of encoded blocks meet the parity invariant, being values of ENC (R47). -/
theorem isCodeword_of_mem_codewords {s : State} (hs : ∀ slot ∈ s.slots, slot.Ok) {c : CodeWord}
    (hc : c ∈ s.codewords) : IsCodeword c := by
  obtain ⟨slot, hmem, hres⟩ := List.mem_filterMap.mp hc
  obtain ⟨d, -, rfl⟩ := hs slot hmem c hres
  exact fun p hp => groupXor_ENC d hp

theorem metadataOf_fits (bits : Text) : (metadataOf bits).Fits (chunkCount bits.length) :=
  ⟨rfl, chunkCount_mul bits.length⟩

/-! ### Commands (R79, R88) -/

/-- What the invariant says of the host reads nothing but the host's fields. -/
theorem State.Inv.of_host_eq {s t : State} (hs : s.Inv) (hports : t.ports.All Port.Ok) (hphase : t.phase = s.phase)
    (hslots : t.slots = s.slots) (hmeta : t.metadata = s.metadata) (hout : t.output = s.output) : t.Inv := by
  obtain ⟨-, hok, hph⟩ := State.inv_iff.mp hs
  refine State.inv_iff.mpr ⟨hports, hslots ▸ hok, ?_⟩
  simpa only [State.PhaseOk, State.AllEncoded, State.Ordered, State.codewords, hphase, hslots, hmeta, hout] using hph

/-- A sample moves no port and none of the host's blocks and lines. -/
theorem sampleUnit_keeps_inv {s t : State} {j : Nat} (hs : s.Inv) (h : sampleUnit j s = .next t) : t.Inv := by
  have hports : s.ports.All Port.Ok := (State.inv_iff.mp hs).1
  rcases sampleUnit_cases h with ⟨c, -, rfl⟩ | ⟨-, rfl⟩
  · exact hs.of_host_eq hports rfl rfl rfl rfl
  · exact hs.of_host_eq hports rfl rfl rfl rfl

theorem runCommand_keeps_inv {s t : State} {c : Command} (hs : s.Inv) (h : runCommand c s = .next t) : t.Inv := by
  have hports : s.ports.All Port.Ok := (State.inv_iff.mp hs).1
  rcases runCommand_cases h with ⟨source, sink, -, rfl⟩ | ⟨texts, sink, -, rfl⟩ | ⟨j, w, -, -, rfl⟩ | ⟨n, -, rfl⟩ |
    ⟨j, -, -, hsample⟩ | ⟨-, rfl⟩
  · refine State.inv_iff.mpr ⟨hports, fun _ h => absurd h List.not_mem_nil, ?_⟩
    exact (State.phaseOk_reading rfl).mpr rfl
  · refine State.inv_iff.mpr ⟨hports, slots_ok_open texts, ?_⟩
    exact (State.phaseOk_encoding rfl).mpr ⟨rfl, fun m hm => by cases hm⟩
  · exact hs.of_host_eq (hports.set j (Port.ok_drive (hports.get j) w)) rfl rfl rfl rfl
  · exact hs.of_host_eq (hports.map fun p hp => Port.ok_elapse hp n) rfl rfl rfl rfl
  · exact sampleUnit_keeps_inv hs hsample
  · exact hs.of_host_eq (hports.map fun _ _ => Port.ok_powerUp) rfl rfl rfl rfl

theorem nextCommand_keeps_inv {s t : State} (hs : s.Inv) (h : nextCommand s = .next t) : t.Inv := by
  cases hc : s.commands with
  | nil =>
    rw [nextCommand_nil hc] at h
    cases h
    exact hs
  | cons c rest =>
    rw [nextCommand_cons hc] at h
    have htaken : State.Inv { s with commands := rest } :=
      hs.of_host_eq (State.inv_iff.mp hs).1 rfl rfl rfl rfl
    exact runCommand_keeps_inv htaken h

/-! ### Errors and the stages of an invocation -/

theorem takeError_keeps_inv {s : State} (hs : s.Inv) (e : HostError) : (takeError e s).Inv :=
  State.inv_iff.mpr ⟨(State.inv_iff.mp hs).1, fun _ h => absurd h List.not_mem_nil,
    (State.phaseOk_ended_err rfl).mpr ⟨rfl, rfl⟩⟩

theorem readInput_keeps_inv {s : State} {src : Source} (hs : s.Inv) (hp : s.phase = .reading src) :
    (readInput src s).Inv := by
  obtain ⟨hports, hok, hph⟩ := State.inv_iff.mp hs
  rcases readInput_cases src s with ⟨-, h⟩ | ⟨t, -, h⟩ <;> rw [h]
  · exact takeError_keeps_inv hs _
  · refine State.inv_iff.mpr ⟨hports, hok, ?_⟩
    exact (State.phaseOk_chunking rfl).mpr ⟨(State.phaseOk_reading hp).mp hph, fun _ => isBitChar_of_mem_filterBits⟩

theorem chunkInput_keeps_inv {s : State} {bits : Text} (hs : s.Inv) (hp : s.phase = .chunking bits) :
    (chunkInput bits s).Inv := by
  obtain ⟨hports, -, hph⟩ := State.inv_iff.mp hs
  rcases chunkInput_cases bits s with ⟨-, h⟩ | ⟨-, h⟩ <;> rw [h]
  · exact takeError_keeps_inv hs _
  · refine State.inv_iff.mpr ⟨hports, slots_ok_open _, ?_⟩
    refine (State.phaseOk_encoding rfl).mpr ⟨((State.phaseOk_chunking hp).mp hph).1, fun m hm => ?_⟩
    cases hm
    simpa using metadataOf_fits bits

/-- Before the first line every Codeword is still to be written. -/
theorem startWriting_ordered {s : State} (hout : s.output = []) : (startWriting s).Ordered s.codewords := by
  rw [State.Ordered, startWriting_output, hout]; rfl

theorem startWriting_keeps_inv {s : State} (hs : s.Inv) (hp : s.phase = .encoding) (hall : s.AllEncoded) :
    (startWriting s).Inv := by
  obtain ⟨hports, hok, hph⟩ := State.inv_iff.mp hs
  obtain ⟨hout, hfits⟩ := (State.phaseOk_encoding hp).mp hph
  exact State.inv_iff.mpr ⟨hports, hok, (State.phaseOk_writing rfl).mpr ⟨hall, startWriting_ordered hout, hfits⟩⟩

theorem afterUse_keeps_inv {s : State} {k : Nat} {slot : Slot} {d : DataWord} (hs : s.Inv) (hp : s.phase = .encoding)
    (hget : s.slots[k]? = some slot) (hd : decodeText slot.text = .ok (.encode d)) : (s.afterUse k d).Inv := by
  obtain ⟨hports, hok, hph⟩ := State.inv_iff.mp hs
  obtain ⟨hout, hfits⟩ := (State.phaseOk_encoding hp).mp hph
  refine State.inv_iff.mpr ⟨hports.set _ (Port.ok_hold d), slots_ok_after_use hok hget hd, ?_⟩
  refine (State.phaseOk_encoding (s := s.afterUse k d) hp).mpr ⟨hout, ?_⟩
  rw [afterUse_slots_length]
  exact hfits

theorem adaptNext_keeps_inv {s t : State} (hs : s.Inv) (hp : s.phase = .encoding) (h : adaptNext s = .next t) : t.Inv := by
  rcases adaptNext_cases s with ⟨-, hall, ha⟩ | ⟨e, -, -, ha⟩ | ⟨k, d, slot, -, hget, -, hd, ha⟩ <;>
    cases ha.symm.trans h
  · exact startWriting_keeps_inv hs hp hall
  · exact takeError_keeps_inv hs _
  · exact afterUse_keeps_inv hs hp hget hd

/-- A line written is one line fewer to write, in the same order. -/
theorem afterLine_ordered {s : State} {c : CodeWord} {cs : List CodeWord} (h : s.Ordered (c :: cs)) (sink : Sink) :
    (s.afterLine sink c cs).Ordered cs := by
  simpa [State.Ordered, State.codewords, State.afterLine] using h

/-- Writing moves one line from what is still to be written to what has been written, so their order stays. -/
theorem writeOutput_keeps_inv {s : State} {rest : List CodeWord} (hs : s.Inv) (hp : s.phase = .writing rest) :
    (writeOutput rest s).Inv := by
  obtain ⟨hports, hok, hph⟩ := State.inv_iff.mp hs
  obtain ⟨hall, hord, hfits⟩ := (State.phaseOk_writing hp).mp hph
  rcases writeOutput_cases rest s with ⟨rfl, h⟩ | ⟨c, cs, rfl, -, h⟩ | ⟨c, cs, sink, rfl, -, h⟩ <;> rw [h]
  · refine State.inv_iff.mpr ⟨hports, hok, (State.phaseOk_ended_ok rfl).mpr ⟨?_, ?_, ?_⟩⟩
    · exact fun c => isCodeword_of_mem_codewords hok
    · simpa [State.Ordered] using hord
    · rw [codewords_length hall]
      exact hfits
  · exact takeError_keeps_inv hs _
  · have hord' : (s.afterLine sink c cs).Ordered cs := afterLine_ordered hord sink
    exact State.inv_iff.mpr ⟨hports, hok, (State.phaseOk_writing rfl).mpr ⟨hall, hord', hfits⟩⟩

/-- Settles O52: at rest a step is a command, and every stage of a running invocation keeps the invariant. -/
theorem stepKeepsInvariant : Obligations.StepKeepsInvariant := by
  intro s t hs h
  by_cases hr : s.Resting
  · rw [step_resting hr] at h
    exact nextCommand_keeps_inv hs h
  · rw [step_eq] at h
    rcases running_cases hr with ⟨src, hp⟩ | ⟨bits, hp⟩ | hp | ⟨rest, hp⟩ <;> rw [hp] at h
    · cases h; exact readInput_keeps_inv hs hp
    · cases h; exact chunkInput_keeps_inv hs hp
    · exact adaptNext_keeps_inv hs hp h
    · cases h; exact writeOutput_keeps_inv hs hp

end Sys2Proof.Machine
end

section
/-! The statements of 41_host_stream.md about the filter and the Chunker: what is kept (R56), the blocks and their
characters (R58 to R60, R62), and the padding (R61). -/

namespace Sys2Proof.Machine

/-! ### The filter (R56) -/

theorem mem_filterBits_eq {t : Text} {c : Char} (h : c ∈ filterBits t) : c = '0' ∨ c = '1' := by
  simpa [isBitChar] using isBitChar_of_mem_filterBits h

theorem count_filterBits {c : Char} (hc : isBitChar c = true) (t : Text) : (filterBits t).count c = t.count c :=
  List.count_filter hc

/-- Settles O38: the filter is `List.filter`, and a literal and a file differ only in how their text is found. -/
theorem filterKeepsBitCharacters : Obligations.FilterKeepsBitCharacters := by
  constructor
  · exact fun t => ⟨List.filter_sublist, fun _ => mem_filterBits_eq, count_filterBits rfl t, count_filterBits rfl t⟩
  · intro s t src hsrc hp
    have hcontents : src.contents = some t := by rcases hsrc with rfl | rfl <;> rfl
    exact ⟨_, step_reading hp, by rw [readInput_some hcontents], by rw [readInput_some hcontents]⟩

/-! ### The padding (R61) -/

/-- Settles O40: the outer `mod 26` only turns 26 into 0. -/
theorem paddingCountArithmetic : Obligations.PaddingCountArithmetic := by
  refine fun l => ⟨?_, chunkCount_mul l⟩
  unfold paddingCount
  split <;> omega

/-! ### The blocks (R58, R59) -/

theorem chunk_getElem? (bits : Text) {n : Nat} (h : n < chunkCount bits.length) :
    (chunk bits)[n]? = some (padBlock (window bits n)) := by
  simp [chunk, h]

/-- There is a block wherever a character of the stream falls. -/
theorem lt_chunkCount {l n i : Nat} (h : 26 * n + i < l) : n < chunkCount l := by
  unfold chunkCount; omega

theorem eq_padBlock_of_getElem?_chunk {bits b : Text} {n : Nat} (h : (chunk bits)[n]? = some b) :
    b = padBlock (window bits n) := by
  have hn : n < chunkCount bits.length := by simpa using (List.getElem?_eq_some_iff.mp h).1
  exact Option.some_inj.mp (h.symm.trans (chunk_getElem? bits hn))

/-- A character of the stream stands in its window, before the padding. -/
theorem padBlock_window_getElem? {bits : Text} {n i : Nat} (hi : i < 26) (h : 26 * n + i < bits.length) :
    (padBlock (window bits n))[i]? = bits[26 * n + i]? := by
  have hw : i < (window bits n).length := by rw [window_length]; omega
  rw [padBlock, List.getElem?_append_left hw, window, List.getElem?_take_of_lt hi, List.getElem?_drop]

/-- Past the end of the stream a window is padded with '0'. -/
theorem padBlock_window_getElem?_past {bits : Text} {n i : Nat} (hi : i < 26) (h : bits.length ≤ 26 * n + i) :
    (padBlock (window bits n))[i]? = some '0' := by
  have hw : (window bits n).length ≤ i := by rw [window_length]; omega
  rw [padBlock, List.getElem?_append_right hw, List.getElem?_replicate, if_pos (by omega)]

/-! ### The blocks in order (R62) -/

theorem window_zero (bits : Text) : window bits 0 = bits.take 26 := rfl

/-- The windows of a stream after the first are the windows of what follows its first 26 characters. -/
theorem window_succ (bits : Text) (n : Nat) : window bits (n + 1) = window (bits.drop 26) n := by
  rw [window, window, List.drop_drop, Nat.mul_succ, Nat.add_comm]

theorem chunkCount_succ {l : Nat} (h : 0 < l) : chunkCount l = chunkCount (l - 26) + 1 := by
  unfold chunkCount; omega

/-- The Chunker as it goes through the stream: the first block, and the blocks of what follows it. -/
theorem chunk_eq_cons {bits : Text} (h : bits ≠ []) :
    chunk bits = padBlock (bits.take 26) :: chunk (bits.drop 26) := by
  rw [chunk, chunkCount_succ (List.length_pos_iff.mpr h), List.range_succ_eq_map, List.map_cons, List.map_map, chunk,
    List.length_drop, window_zero]
  simp only [Function.comp_def, Nat.succ_eq_add_one, window_succ]

theorem padBlock_of_length {w : Text} (h : w.length = 26) : padBlock w = w := by simp [padBlock, h]

theorem paddingCount_of_lt {l : Nat} (h₀ : 0 < l) (h : l < 26) : paddingCount l = 26 - l := by
  unfold paddingCount; omega

theorem paddingCount_sub {l : Nat} (h : 26 ≤ l) : paddingCount (l - 26) = paddingCount l := by
  unfold paddingCount; omega

theorem chunk_flatten (bits : Text) : (chunk bits).flatten = bits ++ List.replicate (paddingCount bits.length) '0' := by
  by_cases h₀ : bits = []
  · subst h₀; rfl
  have hpos : 0 < bits.length := List.length_pos_iff.mpr h₀
  rw [chunk_eq_cons h₀, List.flatten_cons]
  rcases Nat.lt_or_ge bits.length 26 with hlt | hge
  · rw [List.take_of_length_le hlt.le, List.drop_of_length_le hlt.le, paddingCount_of_lt hpos hlt]
    exact List.append_nil _
  · have ih := chunk_flatten (bits.drop 26)
    rw [padBlock_of_length (by simpa using hge), ih, List.length_drop, paddingCount_sub hge, ← List.append_assoc,
      List.take_append_drop]
termination_by bits.length
decreasing_by rw [List.length_drop]; omega

/-- Settles O39: block n is window n padded, and the blocks in order are the stream cut after every 26 characters. -/
theorem chunkerCoversTheStream : Obligations.ChunkerCoversTheStream := by
  intro bits
  refine ⟨chunk_length bits, fun b hb => ?_, fun n i hi h => ?_, fun n i b hb hi h => ?_, chunk_flatten bits⟩
  · obtain ⟨n, hn⟩ := List.mem_iff_getElem?.mp hb
    rw [eq_padBlock_of_getElem?_chunk hn, padBlock_window_length]
  · exact ⟨_, chunk_getElem? bits (lt_chunkCount h), padBlock_window_getElem? hi h⟩
  · rw [eq_padBlock_of_getElem?_chunk hb, padBlock_window_getElem?_past hi h]

end Sys2Proof.Machine
end

section
/-! The statements of 41_host_stream.md about single steps: the adapter's fetch (R64, R65), input errors (R57, R72),
contract errors of blocks handed over (R70, R71), what an error leaves (R66, R76) and the writing of a line (R64, R73). -/

namespace Sys2Proof.Machine

/-! ### The fetch (R64, R65) -/

/-- Settles O29: a use goes to `State.afterUse`, which is what exec leaves with its sample filed. -/
theorem stepRunsTheFetchedBlock : Obligations.StepRunsTheFetchedBlock := by
  rintro s k ⟨d⟩ hp hu
  exact ⟨nextUse_use hu, step_use hp hu⟩

/-- Settles O30: the scan lists the first block first. -/
theorem sequentialFetchTakesTheFirstBlock : Obligations.SequentialFetchTakesTheFirstBlock :=
  fun _ _ _ _ => nextUse_of_first_open

/-! ### Errors of the input (R57, R72) -/

theorem step_chunking_nil {s : State} (hp : s.phase = .chunking []) :
    step s = .next (takeError (.inputError .empty) s) := by
  rw [step_chunking hp, chunkInput, if_pos rfl]

/-- Settles O41: an unreadable file and an empty Bitstream are errors of the input, and an error moves no port. -/
theorem noBitsIsAnInputError : Obligations.NoBitsIsAnInputError := by
  constructor
  · intro s hp
    have hstep : step s = .next (takeError (.inputError .unreadable) s) := by rw [step_reading hp, readInput_none rfl]
    exact ⟨_, hstep, rfl, rfl, rfl, rfl⟩
  · intro s src t hp ht hempty
    have hread : step s = .next { s with phase := .chunking [] } := by rw [step_reading hp, readInput_some ht, hempty]
    exact ⟨_, run_two hread (step_chunking_nil rfl), rfl, rfl, rfl, rfl⟩

/-! ### Blocks handed straight to the adapter (R70, R71) -/

theorem nextUse_of_first_bad {s : State} {slot : Slot} {rest : List Slot} {e : ContractError}
    (hs : s.slots = slot :: rest) (hr : slot.result = none) (hd : decodeText slot.text = .error e) :
    nextUse s = .reject e := by
  simp [nextUse, hs, scanSlots, hr, hd]

theorem step_reject {s : State} {e : ContractError} (hp : s.phase = .encoding) (hu : nextUse s = .reject e) :
    step s = .next (takeError (.contract e) s) := by
  rw [step_encoding hp]
  simp [adaptNext, hu]

/-- Settles O44: the first step takes the command, and the second finds the first block bad. -/
theorem handFedBadBlockEndsInItsError : Obligations.HandFedBadBlockEndsInItsError := by
  intro s text later sink rest e hr hc hd
  have hhand := step_command hr hc
  exact ⟨_, run_two hhand (step_reject rfl (nextUse_of_first_bad rfl rfl hd)), rfl, rfl, rfl, rfl⟩

/-! ### What an error leaves (R66, R76) -/

/-- The lines after every error but an InputError are a free value (D11). -/
theorem leftover_of_not_inputError {e : HostError} (h : e.cls ≠ .inputError) (n : Nat) :
    e.leftover n = Config.leftoverLines n := by
  cases e with
  | inputError c => exact absurd rfl h
  | outputError => exact leftover_outputError n
  | contract e => exact leftover_contract e n

/-- A step of a running invocation that ends it with an error is the entry of that error. -/
theorem eq_takeError_of_step {s t : State} {e : HostError} (hr : ¬ s.Resting) (h : step s = .next t)
    (he : t.phase = .ended (.err e)) : t = takeError e s := by
  have entry : ∀ e', t = takeError e' s → t = takeError e s := by
    rintro e' rfl; cases he; rfl
  rw [step_eq] at h
  rcases running_cases hr with ⟨src, hp⟩ | ⟨bits, hp⟩ | hp | ⟨rest, hp⟩ <;> rw [hp] at h
  · cases h
    rcases readInput_cases src s with ⟨-, h⟩ | ⟨x, -, h⟩
    · exact entry _ h
    · rw [h] at he; cases he
  · cases h
    rcases chunkInput_cases bits s with ⟨-, h⟩ | ⟨-, h⟩
    · exact entry _ h
    · rw [h] at he; cases he
  · rcases adaptNext_cases s with ⟨-, -, ha⟩ | ⟨e', -, -, ha⟩ | ⟨k, d, slot, -, -, -, -, ha⟩ <;> cases ha.symm.trans h
    · cases he
    · exact entry _ rfl
    · cases hp.symm.trans he
  · cases h
    rcases writeOutput_cases rest s with ⟨-, h⟩ | ⟨c, cs, -, -, h⟩ | ⟨c, cs, sink, -, -, h⟩
    · rw [h] at he; cases he
    · exact entry _ h
    · rw [h] at he; cases he

/-- Settles O45: every error goes through `takeError`. -/
theorem anErrorIsTheOnlyResult : Obligations.AnErrorIsTheOnlyResult := by
  intro s t e hr h he
  cases eq_takeError_of_step hr h he
  exact ⟨rfl, rfl, rfl, rfl, rfl, rfl, rfl, fun hcls => leftover_of_not_inputError hcls s.freeCtr⟩

/-! ### Writing a line (R64, R73) -/

/-- The only sink that takes no line is a file without room. -/
theorem Sink.write_eq_none_iff {k : Sink} : k.write = none ↔ k = .file (some 0) := by
  unfold Sink.write
  split <;> simp

theorem renderLines_concat (lines : List Text) (line : Text) :
    renderLines (lines ++ [line]) = renderLines lines ++ (line ++ Config.lineTerminator) := by
  simp [renderLines]

/-- Settles O47: a write fails exactly on a file without room. -/
theorem writingALine : Obligations.WritingALine := by
  intro s c rest hp
  constructor
  · intro hsink
    have hstep : step s = .next (takeError .outputError s) := by
      rw [step_writing hp, writeOutput_fails (Sink.write_eq_none_iff.mpr hsink)]
    exact ⟨_, hstep, rfl⟩
  · intro hsink
    obtain ⟨sink, hw⟩ := Option.ne_none_iff_exists'.mp (mt Sink.write_eq_none_iff.mp hsink)
    refine ⟨_, step_writing hp, ?_⟩
    rw [writeOutput_writes hw]
    refine ⟨rfl, rfl, rfl, rfl, renderLines_concat _ _, fun hstdout => ?_⟩
    rw [hstdout] at hw
    exact (Option.some_inj.mp hw).symm

end Sys2Proof.Machine
end

section
/-! The statement of 41_host_stream.md about a whole invocation (R68): what every stage of it ends with, from the last
stage back to the first. -/

namespace Sys2Proof.Machine

/-! ### How a run ends -/

/-- Within n steps the invocation ends with result r, no further command is taken, and the lines of an `Ok` are the
texts of its Codewords in order (R65, R68). -/
def State.EndsWithin (s : State) (n : Nat) (r : Result) : Prop :=
  ∃ m ≤ n, ∃ t, Sys2Proof.core.run m s = .next t ∧ t.phase = .ended r ∧ t.commands = s.commands
    ∧ ∀ cs md, r = .ok cs md → t.output = cs.map codeText

theorem State.EndsWithin.mono {s : State} {n n' : Nat} {r : Result} (h : s.EndsWithin n r) (hn : n ≤ n') :
    s.EndsWithin n' r := by
  obtain ⟨m, hm, h⟩ := h
  exact ⟨m, hm.trans hn, h⟩

/-- One step that takes no command, and then the rest. -/
theorem State.EndsWithin.step {s t : State} {n : Nat} {r : Result} (hstep : step s = .next t)
    (hc : t.commands = s.commands) (h : t.EndsWithin n r) : s.EndsWithin (n + 1) r := by
  obtain ⟨m, hm, u, hrun, hp, hu, hout⟩ := h
  exact ⟨m + 1, Nat.succ_le_succ hm, u, (run_succ hstep m).trans hrun, hp, hu.trans hc, hout⟩

theorem State.endsWithin_ended_ok {s : State} {cs : List CodeWord} {md : Option Metadata}
    (hp : s.phase = .ended (.ok cs md)) (hout : s.output = cs.map codeText) : s.EndsWithin 0 (.ok cs md) :=
  ⟨0, Nat.le_refl 0, s, rfl, hp, rfl, fun _ _ h => by cases h; exact hout⟩

/-- An error that the next step raises. -/
theorem State.endsWithin_error {s : State} {e : HostError} (hstep : step s = .next (takeError e s)) :
    s.EndsWithin 1 (.err e) :=
  .step hstep rfl ⟨0, Nat.le_refl 0, takeError e s, rfl, rfl, rfl, fun _ _ h => by cases h⟩

/-! ### Writing (R64, R65, R73) -/

/-- The result when n lines are still to be written. -/
def State.writingResult (s : State) (n : Nat) : Result :=
  if s.sink.accepts n then .ok s.codewords s.metadata else .err .outputError

/-- A line written leaves the result as it was, since the sink has room for one line fewer. -/
theorem afterLine_writingResult {s : State} {sink : Sink} (hw : s.sink.write = some sink) (c : CodeWord)
    (cs : List CodeWord) (n : Nat) : (s.afterLine sink c cs).writingResult n = s.writingResult (n + 1) := by
  rw [State.writingResult, State.writingResult, Sink.write_accepts hw]; rfl

theorem endsWithin_writing {s : State} {rest : List CodeWord} (hp : s.phase = .writing rest) (hord : s.Ordered rest) :
    s.EndsWithin (rest.length + 1) (s.writingResult rest.length) := by
  induction rest generalizing s with
  | nil =>
    rw [List.length_nil, State.writingResult, Sink.accepts_zero, if_pos rfl]
    refine .step (step_writing hp) rfl (State.endsWithin_ended_ok rfl ?_)
    exact (List.append_nil _).symm.trans hord
  | cons c cs ih =>
    cases hw : s.sink.write with
    | none =>
      have hstep : step s = .next (takeError .outputError s) := by rw [step_writing hp, writeOutput_fails hw]
      rw [List.length_cons, State.writingResult, Sink.write_none hw, if_neg Bool.false_ne_true]
      exact (State.endsWithin_error hstep).mono (by omega)
    | some sink =>
      have hstep : step s = .next (s.afterLine sink c cs) := by rw [step_writing hp, writeOutput_writes hw]
      rw [List.length_cons, ← afterLine_writingResult hw c cs]
      exact .step hstep rfl (ih rfl (afterLine_ordered hord sink))

/-! ### Encoding (R64, R65) -/

/-- The texts of the blocks, which no use changes. -/
def State.texts (s : State) : List Text := s.slots.map (·.text)

/-- How many blocks are not encoded yet. -/
def State.openBlocks (s : State) : Nat := s.slots.countP (·.result.isNone)

theorem openBlocks_le (s : State) : s.openBlocks ≤ s.slots.length := List.countP_le_length

/-- A use changes one block, the one it fetched. -/
theorem afterUse_slots_split {s : State} {k : Nat} {slot : Slot} (hget : s.slots[k]? = some slot) (d : DataWord) :
    ∃ l₁ l₂, s.slots = l₁ ++ slot :: l₂ ∧ (s.afterUse k d).slots = l₁ ++ ⟨slot.text, some (ENC d)⟩ :: l₂ := by
  obtain ⟨hk, hslot⟩ := List.getElem?_eq_some_iff.mp hget
  refine ⟨s.slots.take k, s.slots.drop (k + 1), ?_, ?_⟩
  · rw [← hslot, List.getElem_cons_drop, List.take_append_drop]
  · rw [State.afterUse, List.modify_eq_take_cons_drop hk, hslot]

theorem afterUse_texts {s : State} {k : Nat} {slot : Slot} (hget : s.slots[k]? = some slot) (d : DataWord) :
    (s.afterUse k d).texts = s.texts := by
  obtain ⟨l₁, l₂, hs, ht⟩ := afterUse_slots_split hget d
  simp [State.texts, hs, ht]

theorem afterUse_openBlocks {s : State} {k : Nat} {slot : Slot} (hget : s.slots[k]? = some slot)
    (hopen : slot.result = none) (d : DataWord) : (s.afterUse k d).openBlocks + 1 = s.openBlocks := by
  obtain ⟨l₁, l₂, hs, ht⟩ := afterUse_slots_split hget d
  simp [State.openBlocks, hs, ht, hopen, Nat.add_assoc]

/-- What an encoded block holds, as a function of its text. -/
theorem Slot.Ok.result_eq {slot : Slot} (h : slot.Ok) (hs : slot.result.isSome) :
    slot.result = some (encodeBlock slot.text) := by
  obtain ⟨c, hc⟩ := Option.isSome_iff_exists.mp hs
  obtain ⟨d, hd, rfl⟩ := h c hc
  cases (decodeText_eq_ok_iff.mp hd).2
  exact hc

theorem codewords_eq_map_texts {s : State} (hok : ∀ slot ∈ s.slots, slot.Ok) (hall : s.AllEncoded) :
    s.codewords = s.texts.map encodeBlock := by
  rw [State.texts, List.map_map]
  exact List.filterMap_eq_map_iff_forall_eq_some.mpr fun slot hmem => (hok slot hmem).result_eq (hall slot hmem)

/-- The result of a run over blocks that all decode: their Codewords, unless the output cannot take them (R68, R73). -/
def blocksResult (texts : List Text) (md : Option Metadata) (sink : Sink) : Result :=
  if sink.accepts texts.length then .ok (texts.map encodeBlock) md else .err .outputError

theorem writingResult_eq_blocksResult {s : State} (hok : ∀ slot ∈ s.slots, slot.Ok) (hall : s.AllEncoded) :
    (startWriting s).writingResult s.codewords.length = blocksResult s.texts s.metadata s.sink := by
  rw [blocksResult, ← codewords_eq_map_texts hok hall, State.texts, List.length_map, ← codewords_length hall]
  rfl

/-- Whatever the schedule chooses, each step of the adapter files one Codeword, until every block has one. -/
theorem endsWithin_encoding {s : State} (hp : s.phase = .encoding) (hok : ∀ slot ∈ s.slots, slot.Ok)
    (hdec : ∀ x ∈ s.texts, ∃ i, decodeText x = .ok i) (hout : s.output = []) :
    s.EndsWithin (s.openBlocks + (s.slots.length + 2)) (blocksResult s.texts s.metadata s.sink) := by
  have hstep : step s = adaptNext s := step_encoding hp
  rcases adaptNext_cases s with ⟨-, hall, ha⟩ | ⟨e, -, hscan, -⟩ | ⟨k, d, slot, -, hget, hopen, hd, ha⟩
  · rw [← writingResult_eq_blocksResult hok hall]
    have hwrite := endsWithin_writing rfl (startWriting_ordered hout)
    refine (State.EndsWithin.step (hstep.trans ha) rfl hwrite).mono ?_
    rw [codewords_length hall]
    omega
  · obtain ⟨j, slot, hget, -, hbad, -⟩ := scanSlots_reject hscan
    obtain ⟨i, hi⟩ := hdec slot.text (List.mem_map_of_mem (List.mem_of_getElem? hget))
    cases hbad.symm.trans hi
  · have hfewer := afterUse_openBlocks hget hopen d
    have htexts := afterUse_texts hget d
    have ih := endsWithin_encoding (s := s.afterUse k d) hp (slots_ok_after_use hok hget hd) (htexts ▸ hdec) hout
    rw [htexts, afterUse_slots_length] at ih
    exact (State.EndsWithin.step (hstep.trans ha) rfl ih).mono (by omega)
termination_by s.openBlocks
decreasing_by omega

/-! ### The stages before it (R56 to R59) -/

/-- The state after the Chunker has run: its blocks, none of them encoded, and the three numbers. -/
def State.afterChunking (s : State) (bits : Text) : State :=
  { s with phase := .encoding, slots := (chunk bits).map fun t => ⟨t, none⟩, metadata := some (metadataOf bits) }

theorem step_chunking_blocks {s : State} {bits : Text} (hp : s.phase = .chunking bits) (h : bits ≠ []) :
    step s = .next (s.afterChunking bits) := by
  rw [step_chunking hp, chunkInput, if_neg h]; rfl

theorem afterChunking_texts (s : State) (bits : Text) : (s.afterChunking bits).texts = chunk bits := by
  simp [State.texts, State.afterChunking, Function.comp_def]

theorem afterChunking_slots_length (s : State) (bits : Text) :
    (s.afterChunking bits).slots.length = chunkCount bits.length := by
  simp [State.afterChunking]

theorem endsWithin_chunking {s : State} {bits : Text} (hp : s.phase = .chunking bits) (h : bits ≠ [])
    (hbits : ∀ c ∈ bits, isBitChar c = true) (hout : s.output = []) :
    s.EndsWithin (2 * chunkCount bits.length + 3) (blocksResult (chunk bits) (some (metadataOf bits)) s.sink) := by
  have htexts := afterChunking_texts s bits
  have hlength := afterChunking_slots_length s bits
  have hopen := openBlocks_le (s.afterChunking bits)
  have hdec : ∀ x ∈ (s.afterChunking bits).texts, ∃ i, decodeText x = .ok i :=
    fun x hx => ⟨_, decodeText_of_mem_chunk hbits (htexts ▸ hx)⟩
  have hend := endsWithin_encoding (s := s.afterChunking bits) rfl (slots_ok_open _) hdec hout
  rw [htexts] at hend
  exact (State.EndsWithin.step (step_chunking_blocks hp h) rfl hend).mono (by omega)

theorem hostResult_unreadable {src : Source} (h : src.contents = none) (sink : Sink) :
    hostResult src sink = .err (.inputError .unreadable) := by
  rw [hostResult, h]

theorem hostResult_empty {src : Source} {text : Text} (h : src.contents = some text) (he : filterBits text = [])
    (sink : Sink) : hostResult src sink = .err (.inputError .empty) := by
  simp [hostResult, h, he]

theorem hostResult_blocks {src : Source} {text : Text} (h : src.contents = some text) (he : filterBits text ≠ [])
    (sink : Sink) : hostResult src sink =
      blocksResult (chunk (filterBits text)) (some (metadataOf (filterBits text))) sink := by
  simp [hostResult, blocksResult, h, he]

/-- From the reading phase on, with the number of steps for the blocks there are: none when nothing can be read. -/
theorem endsWithin_reading {s : State} {src : Source} (hp : s.phase = .reading src) (hout : s.output = []) :
    s.EndsWithin (2 * chunkCount (filterBits (src.contents.getD [])).length + 4) (hostResult src s.sink) := by
  cases hc : src.contents with
  | none =>
    rw [hostResult_unreadable hc]
    have hstep : step s = .next (takeError (.inputError .unreadable) s) := by rw [step_reading hp, readInput_none hc]
    exact (State.endsWithin_error hstep).mono (by omega)
  | some text =>
    have hread : step s = .next { s with phase := .chunking (filterBits text) } := by
      rw [step_reading hp, readInput_some hc]
    by_cases he : filterBits text = []
    · rw [hostResult_empty hc he]
      rw [he] at hread
      have herror := State.endsWithin_error (step_chunking_nil (s := { s with phase := .chunking [] }) rfl)
      exact (State.EndsWithin.step hread rfl herror).mono (by omega)
    · rw [hostResult_blocks hc he]
      have hend := endsWithin_chunking (s := { s with phase := .chunking (filterBits text) }) rfl he
        (fun _ => isBitChar_of_mem_filterBits) hout
      exact .step hread rfl hend

/-- Settles O51: the first step takes the command and begins with an empty output, whatever stood there before. -/
theorem invocationComputesTheStreamFunction : Obligations.InvocationComputesTheStreamFunction := by
  intro s src sink rest hr hc
  have hbegin := step_command hr hc
  obtain ⟨n, hn, t, hrun, hphase, hcommands, hlines⟩ :=
    endsWithin_reading (s := ({ s with commands := rest } : State).begin (.reading src) [] sink) rfl rfl
  refine ⟨n + 1, t, (run_succ hbegin n).trans hrun, hphase, hcommands, hlines, fun text htext => ?_⟩
  rw [htext, Option.getD_some] at hn
  omega

end Sys2Proof.Machine
end

section
/-! The statements of 60_exceptions.md: the contract checks of a block (R70, R71), the order in which errors are found
(R75), what an InputError leaves (R75, P5), what cannot stop (R69) and what follows an error (R77). -/

namespace Sys2Proof

/-! ### The contract checks of a block (R70, R71) -/

theorem isBitChar_iff {c : Char} : isBitChar c = true ↔ c = '0' ∨ c = '1' := by
  simp [isBitChar]

/-- The index of the first bad character: a bad character stands there, and only bits before it. -/
theorem firstBadChar_eq_some_iff {s : Text} {j : Nat} :
    firstBadChar s = some j ↔
      (∃ c, s[j]? = some c ∧ isBitChar c = false) ∧ ∀ m < j, ∃ c, s[m]? = some c ∧ isBitChar c = true := by
  rw [firstBadChar, List.findIdx?_eq_some_iff_getElem]
  constructor
  · rintro ⟨hj, hbad, hbits⟩
    refine ⟨⟨s[j], List.getElem?_eq_getElem hj, by simpa using hbad⟩, fun m hm => ?_⟩
    exact ⟨s[m], List.getElem?_eq_getElem _, by simpa using hbits m hm⟩
  · rintro ⟨⟨c, hc, hbad⟩, hbits⟩
    obtain ⟨hj, rfl⟩ := List.getElem?_eq_some_iff.mp hc
    refine ⟨hj, by simp [hbad], fun m hm => ?_⟩
    obtain ⟨c', hget, hbit⟩ := hbits m hm
    obtain ⟨_, rfl⟩ := List.getElem?_eq_some_iff.mp hget
    simp [hbit]

/-- With 26 characters the first bad one decides (R71). -/
theorem decodeText_of_firstBadChar {s : Text} {j : Nat} (hl : s.length = 26) (h : firstBadChar s = some j) :
    decodeText s = .error (.invalidBitValue j) := by
  rw [decodeText, if_pos hl, h]

/-- Everything the adapter can make of a text (R70, R71, R75). -/
theorem decodeText_cases (s : Text) :
    (s.length ≠ 26 ∧ decodeText s = .error (.invalidBlockLength s.length)) ∨
    (∃ j, s.length = 26 ∧ firstBadChar s = some j ∧ decodeText s = .error (.invalidBitValue j)) ∨
    (s.length = 26 ∧ firstBadChar s = none ∧ decodeText s = .ok (.encode (dataOfText s))) := by
  by_cases hl : s.length = 26
  · cases hb : firstBadChar s with
    | none => exact .inr (.inr ⟨hl, rfl, decodeText_of_wellFormed hl (firstBadChar_eq_none.mp hb)⟩)
    | some j => exact .inr (.inl ⟨j, hl, rfl, decodeText_of_firstBadChar hl hb⟩)
  · exact .inl ⟨hl, decodeText_of_length_ne hl⟩

theorem decodeText_eq_invalidBlockLength_iff {s : Text} {n : Nat} :
    decodeText s = .error (.invalidBlockLength n) ↔ s.length ≠ 26 ∧ n = s.length := by
  constructor
  · intro h
    rcases decodeText_cases s with ⟨hl, hd⟩ | ⟨j, -, -, hd⟩ | ⟨-, -, hd⟩ <;> cases hd.symm.trans h
    exact ⟨hl, rfl⟩
  · rintro ⟨hl, rfl⟩
    exact decodeText_of_length_ne hl

theorem decodeText_eq_invalidBitValue_iff {s : Text} {j : Nat} :
    decodeText s = .error (.invalidBitValue j) ↔ s.length = 26 ∧ firstBadChar s = some j := by
  constructor
  · intro h
    rcases decodeText_cases s with ⟨-, hd⟩ | ⟨j, hl, hb, hd⟩ | ⟨-, -, hd⟩ <;> cases hd.symm.trans h
    exact ⟨hl, hb⟩
  · rintro ⟨hl, hb⟩
    exact decodeText_of_firstBadChar hl hb

/-- Settles O25: the length is checked first, then the first bad character decides, and the Chunker's blocks have
neither fault. -/
theorem contractChecksOfABlock : Obligations.ContractChecksOfABlock := by
  refine ⟨fun s n => decodeText_eq_invalidBlockLength_iff, fun s j => ?_, fun n => ⟨rfl, rfl, rfl, rfl⟩,
    fun t b hb => ⟨_, Machine.decodeText_of_mem_chunk (fun _ => Machine.isBitChar_of_mem_filterBits) hb⟩⟩
  rw [decodeText_eq_invalidBitValue_iff, firstBadChar_eq_some_iff]
  simp only [← Bool.not_eq_true, isBitChar_iff, not_or, and_or_left, exists_or, exists_eq_right]

end Sys2Proof

namespace Sys2Proof.Machine

/-! ### Contract errors in chunk order (R75) -/

/-- Every open block before the one that is fetched passes its contract checks. -/
theorem decodeText_ok_before_use {s : State} {k : Nat} {i : Instr} (h : nextUse s = .use k i) {j : Nat} {slot : Slot}
    (hj : j < k) (hget : s.slots[j]? = some slot) (hopen : slot.result = none) : ∃ i', decodeText slot.text = .ok i' := by
  rcases nextUse_cases s with ⟨h', -⟩ | ⟨e, h', -⟩ | ⟨k', i', h', hmem⟩ <;> cases h'.symm.trans h
  exact scanSlots_before hmem (by simpa using hj) hget hopen

/-- A fetch that rejects has found no block to encode before the one that fails. -/
theorem scanSlots_of_nextUse_reject {s : State} {e : ContractError} (h : nextUse s = .reject e) :
    scanSlots 0 s.slots = ([], some e) := by
  rcases nextUse_cases s with ⟨h', -⟩ | ⟨e', h', hscan⟩ | ⟨k, i, h', -⟩ <;> cases h'.symm.trans h
  exact hscan

/-- Settles O43: the scan goes through the blocks in chunk order and stops at the first one that fails. -/
theorem contractErrorsInChunkOrder : Obligations.ContractErrorsInChunkOrder := by
  refine ⟨fun s k i hu j slot => decodeText_ok_before_use hu, fun s e hp hu => ⟨step_reject hp hu, ?_⟩⟩
  obtain ⟨k, slot, hget, hopen, hbad, hbefore⟩ := scanSlots_reject (scanSlots_of_nextUse_reject hu)
  exact ⟨k, slot, hget, hopen, hbad, fun j slot' hj => hbefore j hj slot'⟩

/-! ### What an InputError leaves (R75, P5) -/

/-- Settles O42: a running invocation enters every error through `takeError`, which leaves no line after an
InputError. -/
theorem noLineAfterAnInputError : Obligations.NoLineAfterAnInputError := by
  intro s t c hr h he
  cases eq_takeError_of_step hr h he
  exact ⟨leftover_inputError c s.freeCtr, rfl⟩

/-! ### What cannot stop (R69) -/

/-- The adapter never stops, since ENCODE never does and a failing block is an error state. -/
theorem adaptNext_answers (s : State) : ∃ t, adaptNext s = .next t := by
  rcases adaptNext_cases s with ⟨-, -, h⟩ | ⟨e, -, -, h⟩ | ⟨k, d, slot, -, -, -, -, h⟩
  · exact ⟨_, h⟩
  · exact ⟨_, h⟩
  · exact ⟨_, h⟩

theorem step_answers_of_running {s : State} (hr : ¬ s.Resting) : ∃ t, step s = .next t := by
  rcases running_cases hr with ⟨src, hp⟩ | ⟨bits, hp⟩ | hp | ⟨rest, hp⟩
  · exact ⟨_, step_reading hp⟩
  · exact ⟨_, step_chunking hp⟩
  · rw [step_encoding hp]
    exact adaptNext_answers s
  · exact ⟨_, step_writing hp⟩

/-- With no invocation running and no command waiting a step changes nothing (log entry 13). -/
theorem step_idle {s : State} (hr : s.Resting) (hc : s.commands = []) : step s = .next s :=
  (step_resting hr).trans (nextCommand_nil hc)

/-- Settles O49: a running invocation's stages all answer, and at rest only a command could stop. -/
theorem theBlockNeverStops : Obligations.TheBlockNeverStops := by
  refine ⟨fun d s => ⟨_, exec_encode d s⟩, decodePort_encodePort, fun s h => ?_⟩
  by_cases hr : s.Resting
  · exact ⟨s, step_idle hr (h.resolve_left (not_not_intro hr))⟩
  · exact step_answers_of_running hr

/-! ### What follows an error (R77) -/

/-- Settles O46: an ended invocation is at rest, so the next step is the next command or nothing. -/
theorem errorsAreTerminal : Obligations.ErrorsAreTerminal := by
  intro s e he
  have hr : s.Resting := .inr ⟨_, he⟩
  refine ⟨step_idle hr, fun src sink rest hc => ?_⟩
  exact ⟨_, step_command hr hc, rfl, rfl, rfl, rfl, rfl, rfl, rfl⟩

end Sys2Proof.Machine
end

section
/-! The statements of 70_reset_and_hazards.md: driving, holding and sampling a port (R88), samples of an output that has
not settled (R86, R89), inputs that are not binary (R85), and power-up (R80, R82, R83, R86). -/

namespace Sys2Proof.Machine

/-! ### Driving a word and holding it (R88) -/

theorem encodePort_ne_floating (d : DataWord) : encodePort (.encode d) ≠ Vector.replicate 26 .floating := by
  intro h
  have hwire : (encodePort (.encode d))[0].isBinary = true := by
    rw [encodePort_getElem d (by omega), Wire.isBinary_ofBit]
  rw [h, Vector.getElem_replicate] at hwire
  cases hwire

theorem Port.eq_hold {p : Port} {d : DataWord} (hd : p.dataIn = encodePort (.encode d)) (hs : p.settle = .settled) :
    p = Port.hold d := by
  obtain ⟨dataIn, settle⟩ := p
  obtain rfl : dataIn = encodePort (.encode d) := hd
  obtain rfl : settle = .settled := hs
  rfl

/-- Driving a word leaves no undriven port: levels that were there already were driven, since undriven ports float. -/
theorem Port.drive_word_settle_ne_undriven {p : Port} (hok : p.Ok) (d : DataWord) :
    (p.drive (encodePort (.encode d))).settle ≠ .undriven := fun hs =>
  encodePort_ne_floating d ((Port.drive_dataIn p _).symm.trans (Port.ok_drive hok _ hs))

/-- A word driven and held for `T_PD` is what one atomic use leaves. -/
theorem Port.elapse_drive_word {p : Port} (hok : p.Ok) (d : DataWord) {n : Nat} (hn : Config.T_PD ≤ n) :
    (p.drive (encodePort (.encode d))).elapse n = Port.hold d := by
  apply Port.eq_hold
  · rw [Port.elapse_dataIn, Port.drive_dataIn]
  · exact Port.elapse_settles (Port.drive_word_settle_ne_undriven hok d) hn

/-- What one change to instance j and then one to every instance leave on instance j. -/
theorem Bank.get_map_set {b : Bank} {j : Nat} (hj : j < b.size) (p : Port) (f : Port → Port) :
    ((b.set j p).map f).get j = f p := by
  rw [Bank.get_map (by rwa [Bank.set_size]), Bank.get_set_same hj]

theorem step_drive {s : State} {j : Nat} {w : DataPort} {rest : List Command} (hr : s.Resting)
    (hc : s.commands = .drive j w :: rest) (hj : j < s.ports.size) :
    step s = .next { s with commands := rest, ports := s.ports.set j ((s.ports.get j).drive w) } := by
  rw [step_command hr hc]
  exact runCommand_drive (s := { s with commands := rest }) hj w

theorem step_wait {s : State} {n : Nat} {rest : List Command} (hr : s.Resting) (hc : s.commands = .wait n :: rest) :
    step s = .next { s with commands := rest, ports := s.ports.map (·.elapse n) } := by
  rw [step_command hr hc, runCommand_wait]

theorem step_sample_shows {s : State} {j : Nat} {c : CodeWord} {rest : List Command} (hr : s.Resting)
    (hc : s.commands = .sample j :: rest) (hj : j < s.ports.size) (hv : (s.ports.get j).view = .shows c) :
    step s = .next (State.record { s with commands := rest } c) := by
  rw [step_command hr hc]
  exact runCommand_sample_shows hj hv

/-- Settles O33: after the drive and the wait the port is `Port.hold` of the word, which shows ENC of it. -/
theorem driveWaitSampleIsEncode : Obligations.DriveWaitSampleIsEncode := by
  intro s d j n rest hs hr hj hn hc
  have hok : (s.ports.get j).Ok := (State.inv_iff.mp hs).1.get j
  have hport : ((s.ports.set j ((s.ports.get j).drive (encodePort (.encode d)))).map (·.elapse n)).get j =
      Port.hold d := by
    rw [Bank.get_map_set hj, Port.elapse_drive_word hok d hn]
  have hview := (congrArg Port.view hport).trans (Port.view_hold d)
  refine ⟨_, (run_succ (step_drive hr hc hj) 2).trans (run_two (step_wait hr rfl)
    (step_sample_shows hr rfl ?_ hview)), rfl, hport, rfl⟩
  rwa [Bank.map_size, Bank.set_size]

/-! ### Sampling an output that has not settled (R86, R89) -/

theorem runCommand_sample_anyValue {s : State} {j : Nat} (hj : j < s.ports.size)
    (hv : (s.ports.get j).view = .anyValue) : runCommand (.sample j) s = .next s.recordFree := by
  simp [runCommand, sampleUnit, hj, hv]

/-- Settles O34: a port never driven or settling shows any value, and it settles until `T_PD` has passed. -/
theorem unsettledSampleIsFree : Obligations.UnsettledSampleIsFree := by
  constructor
  · intro s j hj hunsettled
    have hview : (s.ports.get j).view = .anyValue := by
      rcases hunsettled with hs | ⟨⟨d, hd⟩, n, hs⟩
      · exact Port.view_of_undriven hs
      · exact Port.view_of_settling hd hs
    exact ⟨_, runCommand_sample_anyValue hj hview, rfl, rfl, rfl⟩
  · intro p d n m hne hlt
    have hfirst : 0 + n < Config.T_PD := by omega
    have hboth : 0 + n + m < Config.T_PD := by omega
    rw [Port.drive_change hne, Port.elapse_settling rfl hfirst, Port.elapse_settling rfl hboth]
    exact ⟨rfl, Port.view_of_settling rfl rfl, Port.view_of_settling rfl rfl⟩

/-! ### An input that is not binary (R85) -/

theorem runCommand_sample_noOutput {s : State} {j : Nat} (hj : j < s.ports.size)
    (hv : (s.ports.get j).view = .noOutput) : runCommand (.sample j) s = .refused .inputNotBinary := by
  simp [runCommand, sampleUnit, hj, hv]

/-- Settles O35: neither an unknown nor a floating wire is binary, so the port has no output. -/
theorem unknownInputIsRefused : Obligations.UnknownInputIsRefused := by
  intro s j b hb hj hs hw
  have hwire : ((s.ports.get j).dataIn[b]).isBinary = false := by
    rcases hw with hw | hw <;> rw [hw] <;> rfl
  exact runCommand_sample_noOutput hj (Port.view_of_notBinary hb hwire hs)

/-! ### Power-up (R80, R82, R83, R86) -/

theorem Port.view_powerUp : Port.powerUp.view = .anyValue := Port.view_of_undriven rfl

/-- Settles O54: every instance starts as `Port.powerUp`, a power cycle sets all of them back to it, and ENCODE reads
nothing of the state it starts from. -/
theorem afterPowerUp : Obligations.AfterPowerUp := by
  refine ⟨fun j _ => ?_, ⟨rfl, rfl, rfl, step_idle (.inl rfl) rfl⟩, fun d => ⟨_, exec_encode d _, rfl⟩,
    fun s rest hr hc => ?_⟩
  · have hport : State.reset.ports.get j = Port.powerUp := by cases j <;> rfl
    rw [hport]
    exact ⟨Port.view_powerUp, rfl⟩
  · refine ⟨_, step_command hr hc, Bank.map_size _ _, fun j hj => ?_, rfl, rfl, rfl, rfl, rfl, rfl, rfl, rfl, rfl⟩
    have hport : (s.ports.map fun _ => Port.powerUp).get j = Port.powerUp := Bank.get_map hj _
    exact ⟨hport, congrArg Port.settle hport, congrArg Port.dataIn hport,
      (congrArg Port.view hport).trans Port.view_powerUp⟩

end Sys2Proof.Machine
end

section
/-! The statements about the code as a set (end of 30_encoding.md section 3), the error codes (60_exceptions.md section 2) and
the invariant after power-up (70_reset_and_hazards.md section 1). -/

namespace Sys2Proof.Machine

/-! ### The words that meet the parity invariant (R43, R47) -/

theorem codeBit_parity_of_isCodeword {c : CodeWord} (h : IsCodeword c) {p : Nat} (hp : p ∈ parityPositions) :
    codeBit c p = xorBits (((parityGroup p).filter (· != p)).map (codeBit c)) :=
  bne_eq_false_iff_eq.mp ((groupXor_eq c hp).symm.trans (h p hp))

/-- A word that meets the parity invariant is known by its data positions: the others of each group are such. -/
theorem eq_of_isCodeword {a b : CodeWord} (ha : IsCodeword a) (hb : IsCodeword b)
    (hdata : ∀ k < 26, codeBit a (pos k) = codeBit b (pos k)) : a = b := by
  refine code_ext_pos (fun p hp => ?_) hdata
  rw [codeBit_parity_of_isCodeword ha hp, codeBit_parity_of_isCodeword hb hp]
  refine congrArg xorBits (List.map_congr_left fun i hi => ?_)
  obtain ⟨hi, hne⟩ := List.mem_filter.mp hi
  have hdataPos : i ∈ dataPositions := mem_dataPositions_of_mem_parityGroup hp hi (bne_iff_ne.mp hne)
  rw [← pos_idx hdataPos]
  exact hdata (idx i) (idx_lt hdataPos)

theorem isCodeword_ENC (d : DataWord) : IsCodeword (ENC d) := fun _ hp => groupXor_ENC d hp

/-- On the words that meet the parity invariant, encoding undoes the extraction. -/
theorem ENC_extractData {c : CodeWord} (h : IsCodeword c) : ENC (extractData c) = c :=
  eq_of_isCodeword (isCodeword_ENC _) h fun _ hk => (codeBit_ENC_pos _ hk).trans (dataBit_extractData c hk)

/-- Settles O11: a word that meets the invariant is the ENC of its extraction. -/
theorem exactlyTheCodewordsOccur : Obligations.ExactlyTheCodewordsOccur := by
  refine fun c => ⟨fun h => ⟨extractData c, ENC_extractData h⟩, ?_⟩
  rintro ⟨d, rfl⟩
  exact isCodeword_ENC d

/-! ### The codes and classes of the errors (D7) -/

/-- The class that belongs to a code: codes 3 and 4 are the contract errors. -/
def ErrorClass.ofCode : Nat → ErrorClass
  | 1 => .inputError
  | 2 => .outputError
  | _ => .contractError

theorem HostError.cls_eq_ofCode (e : HostError) : e.cls = ErrorClass.ofCode e.code := by
  match e with
  | .inputError _ => rfl
  | .outputError => rfl
  | .contract (.invalidBlockLength _) => rfl
  | .contract (.invalidBitValue _) => rfl

/-- Settles O48: the table's rows are the definitions' own, and the class is a function of the code. -/
theorem errorCodesOfTheTable : Obligations.ErrorCodesOfTheTable := by
  refine ⟨fun _ => ⟨rfl, rfl⟩, ⟨rfl, rfl⟩, fun _ => ⟨rfl, rfl⟩, fun _ => ⟨rfl, rfl⟩, fun e e' h => ?_⟩
  rw [e.cls_eq_ofCode, e'.cls_eq_ofCode, h]

/-! ### The machine after power-up (R82, R86) -/

/-- Settles O53: the one port floats, there are no blocks, and an idle host owes nothing. -/
theorem resetMeetsInvariant : Obligations.ResetMeetsInvariant :=
  State.inv_iff.mpr ⟨⟨Port.ok_powerUp, List.forall_mem_nil _⟩, List.forall_mem_nil _, trivial⟩

end Sys2Proof.Machine
end
